-- ==== Sys2Proof/Word.lean ====
section
/-! DEFINITION. The words of the port: the 32-bit register, the pin index, the level (00_scope.md R5, R7). -/

namespace Sys2Proof

/-- A register, an access and a bus offset are 32 bits wide (R5 `REGW`; the offset's width is the spec's decision D2, log entry 17). -/
abbrev Word := BitVec 32

/-- A pin that exists: 16 of them, indexed 0..15 (R5 `NPINS`). -/
abbrev Pin := Fin 16

/-- A 16-bit vector with one bit per pin, pin p at bit p (R12): the levels, a set mask, a reset mask. -/
abbrev PinMask := BitVec 16

/-- A logic level: `true` is high (1), `false` is low (0) (R12). -/
abbrev Level := Bool

end Sys2Proof
end

