-- ==== Sys2Proof/Config.lean ====
section
/-! DEFINITION. What an implementation fixes: the one parameter the spec leaves open (00_scope.md R6, 92_eei_decisions.md D5). -/

namespace Sys2Proof

/-- What an access to offset 0x18 does (`LCKR_POLICY`, 43_lock_and_unmapped.md R100, R101).
`razWi`: reads as zero, writes ignored. `reject`: AddressingError in both directions. -/
inductive LckrPolicy where
  | razWi
  | reject
  deriving DecidableEq, Repr

/-- The configuration of one block, fixed for the machine. -/
structure Config where
  lckrPolicy : LckrPolicy
  deriving DecidableEq, Repr

/-- The spec's default, `RAZ_WI` (R6; log entry 4). -/
def Config.default : Config := { lckrPolicy := .razWi }

end Sys2Proof
end

