-- ==== Sys2Proof/Stimulus.lean ====
section
/-! DEFINITION. What the outside agents present to the block (20_memory.md R30 to R32, R47), before any decoding. -/

namespace Sys2Proof

/-- How wide a bus access is when it reaches the block. Only `word` is an access the block knows (R35). -/
inductive AccessSize where
  | byte
  | halfword
  | word
  deriving DecidableEq, Repr

/-- One stimulus at the block's boundary. The first five forms are the entry points of 30_encoding.md R50
(with an access width, so that an access the block does not take can be named); the last is the reset
that 70_reset_and_hazards.md R143 says a model must refuse. -/
inductive Stimulus where
  /-- A bus read: `MemRead(off, 4)` at size `word` (R30). -/
  | memRead (off : Word) (size : AccessSize)
  /-- A bus write: `MemWrite(off, 4, v)` at size `word` (R30). -/
  | memWrite (off : Word) (size : AccessSize) (v : Word)
  /-- A pin-side level change; the index is any integer (R31). -/
  | inject (idx : Int) (level : Level)
  /-- The port reset (R32). -/
  | reset
  /-- Construction, or a system-wide reset (R32). -/
  | powerOn
  /-- A reset of the connection framework without a reset of the block (R143, 93 U12). -/
  | frameworkReset
  deriving DecidableEq, Repr

/-- Why the decoder turns a presentation away: it is no stimulus of this block. -/
inductive Reject where
  /-- An access narrower than 32 bits: the collaborator widens it, the block never sees one (R35, 93 U14). -/
  | narrowAccess (size : AccessSize)
  /-- A framework-only reset: not a stimulus (R143, 93 U12). -/
  | frameworkReset
  deriving DecidableEq, Repr

end Sys2Proof
end

