-- ==== Sys2Proof/Syntax.lean ====
section
/-! DEFINITION. The nineteen operations (30_encoding.md R58), one constructor per row of spec/opcode_table.json.
The block executes no instructions; an operation is the unit that plays that part (R9). -/

namespace Sys2Proof

/-- An operation with its operands. `v` is the 32-bit `wdata` of a bus write, `off` the byte offset of an unmapped access. -/
inductive Instr where
  /-- read Configuration Low (R70) -/
  | rdCrl
  /-- write Configuration Low (R71) -/
  | wrCrl (v : Word)
  /-- read Configuration High (R72) -/
  | rdCrh
  /-- write Configuration High (R73) -/
  | wrCrh (v : Word)
  /-- read Input Data (R81) -/
  | rdIdr
  /-- write Input Data (R82) -/
  | wrIdr (v : Word)
  /-- read Output Data (R83) -/
  | rdOdr
  /-- write Output Data (R84) -/
  | wrOdr (v : Word)
  /-- read Bit Set/Reset (R92) -/
  | rdBsrr
  /-- write Bit Set/Reset (R91) -/
  | wrBsrr (v : Word)
  /-- read Bit Reset (R95) -/
  | rdBrr
  /-- write Bit Reset (R94) -/
  | wrBrr (v : Word)
  /-- read Port Configuration Lock (R100) -/
  | rdLckr
  /-- write Port Configuration Lock (R101) -/
  | wrLckr (v : Word)
  /-- read of an offset with no register (R102) -/
  | rdUnmapped (off : Word)
  /-- write of an offset with no register (R103) -/
  | wrUnmapped (off : Word) (v : Word)
  /-- external signal injection (R111) -/
  | inject (idx : Int) (level : Level)
  /-- port reset (R140) -/
  | reset
  /-- power-on reset (R141) -/
  | por
  deriving DecidableEq, Repr

end Sys2Proof
end

