-- ==== Sys2Proof/Machine/State.lean ====
section
/-! DEFINITION. The state of one block (10_state.md), what an operation answers (00_scope.md R8), and the state after
power-on (R23). -/

namespace Sys2Proof.Machine

/-- The complete state of one block, 80 bits (10_state.md, opening). -/
structure Port where
  /-- `MODE[0..15]`, 2 bits each (R10) -/
  mode : Vector (BitVec 2) 16
  /-- `CNF[0..15]`, 2 bits each (R11) -/
  cnf : Vector (BitVec 2) 16
  /-- `SIG[15:0]`, bit p the last known level of pin p (R12) -/
  sig : BitVec 16
  deriving DecidableEq, Repr

/-- The event `ConnSet(p, L)`: the external connection of pin p is driven to L (44_pin_arbiter.md R115). -/
structure ConnSet where
  pin : Pin
  level : Level
  deriving DecidableEq, Repr

/-- The diagnostics of the block: one kind, the usage warning `Warn(WrongDirection, p)` (60_exceptions.md R121, R123). -/
inductive Diagnostic where
  | wrongDirection (p : Pin)
  deriving DecidableEq, Repr

/-- The result of an operation (R8): Ok, Ok with the data of a read, or AddressingError with the offending offset (R120).
A failed read has no data (R102). -/
inductive Result where
  | ok
  | data (v : Word)
  | addressingError (off : Word)
  deriving DecidableEq, Repr

/-- What an operation answers (R8): its result, its events in order, its diagnostics in order. -/
structure Response where
  result : Result
  events : List ConnSet
  diagnostics : List Diagnostic
  deriving DecidableEq, Repr

/-- One line of a run: an operation and what it answered (30_encoding.md R65; 70_reset_and_hazards.md R159). -/
structure Entry where
  op : Instr
  response : Response
  deriving DecidableEq, Repr

/-- An operation in progress: the port as written so far, and what it has emitted so far (R8 `<-` and `emit`). -/
structure Work where
  port : Port
  events : List ConnSet
  diagnostics : List Diagnostic
  deriving DecidableEq, Repr

/-- The machine: the block, its configuration, the stimuli still to be served and the run so far. The block's own state is
`port` and nothing else (R19); `pending` and `transcript` are its two sides toward the outside (log entries 1 and 2). -/
structure State where
  /-- the 80 bits -/
  port : Port
  /-- `LCKR_POLICY` (R6; log entry 4) -/
  config : Config
  /-- the stimuli the environment has still to have served, the next one first (R40, R45) -/
  pending : List Stimulus
  /-- the responses so far, one per stimulus served, the oldest first (R159) -/
  transcript : List Entry
  deriving DecidableEq, Repr

/-- The reasons to stop with a fault: none. Every operation is total (R8, R159) and an AddressingError is an answer the
machine goes on after (R126, R127; log entry 5). Nobody raises a fault. -/
inductive Fault where
  deriving DecidableEq, Repr

/-- The reasons to refuse. -/
inductive Refusal where
  /-- Raised by `exec` for an operation that has no meaning yet; none is left. Safe. -/
  | notModelled (mnemonic : String)
  /-- Raised by `step` for an access narrower than 32 bits, which the block never sees (20_memory.md R35, 93 U14; log entry 6). Safe. -/
  | narrowAccess (size : AccessSize)
  /-- Raised by `step` for a reset of the connection framework alone (70_reset_and_hazards.md R143, 93 U12; log entry 7). Safe. -/
  | frameworkReset
  deriving DecidableEq, Repr

/-- The port after power-on (R23): every pin Input and Floating, every level low. -/
def Port.reset : Port :=
  { mode := Vector.replicate 16 0b00#2, cnf := Vector.replicate 16 0b01#2, sig := 0x0000#16 }

/-- The machine right after power-on, which is the initial state of every run (70_reset_and_hazards.md R141): the 80 bits at
their defaults, the default policy, nothing presented yet and nothing answered yet. -/
def State.reset : State :=
  { port := Port.reset, config := Config.default, pending := [], transcript := [] }

end Sys2Proof.Machine
end

