-- ==== Sys2Proof/Machine/Flags.lean ====
section
/-! DEFINITION. The block has no flags, condition codes or sticky bits (10_state.md R18). What stands in for them is the
response of an operation; this file holds what a response says on the bus port (20_memory.md R30) and how many conditions
it carries (60_exceptions.md R125). -/

namespace Sys2Proof.Machine

/-- `err` of the bus port: 1 for an AddressingError (R30, R120). -/
def Result.err : Result → Bool
  | .ok => false
  | .data _ => false
  | .addressingError _ => true

/-- `rdata` of the bus port: present only for a read that did not fail (R30, R102). -/
def Result.rdata : Result → Option Word
  | .ok => none
  | .data v => some v
  | .addressingError _ => none

/-- How many abnormal conditions a response reports: the AddressingError and the warnings (R120, R121, R125). -/
def Response.conditions (r : Response) : Nat := r.result.err.toNat + r.diagnostics.length

end Sys2Proof.Machine
end

