-- ==== Sys2Proof/Machine/Operands.lean ====
section
/-! DEFINITION. Operand forms: the nibble of a pin (30_encoding.md R52, R53), the 16-bit fields of the data registers
(R54 to R57), the pin index of an injection (20_memory.md R31), and the names of the encodings (10_state.md R10, R11). -/

namespace Sys2Proof.Machine

/-! ### Mode and configuration values -/

/-- `MODE = 0b00`, Input: the only value the arbiter tells apart (R10, R110). -/
def modeInput : BitVec 2 := 0b00#2

/-- `CNF = 0b01`, Floating for an Input pin: the reset value (R11, R23). -/
def cnfFloating : BitVec 2 := 0b01#2

/-- The names of the modes (R10). They select no behaviour (the spec's D15; log entry 11). -/
inductive ModeName where
  | input
  | output10MHz
  | output2MHz
  | output50MHz
  deriving DecidableEq, Repr

/-- The name of a mode value (R10). -/
def modeName (m : BitVec 2) : ModeName :=
  if m = 0b00#2 then .input
  else if m = 0b01#2 then .output10MHz
  else if m = 0b10#2 then .output2MHz
  else .output50MHz

/-- The names of the configurations, which depend on the mode (R11; `reservedInput` is the spec's label, C4). -/
inductive CnfName where
  | analog
  | floating
  | pullUpDown
  | reservedInput
  | pushPull
  | openDrain
  | alternatePushPull
  | alternateOpenDrain
  deriving DecidableEq, Repr

/-- The name of a configuration value under a mode (R11). -/
def cnfName (m c : BitVec 2) : CnfName :=
  if m = modeInput then
    if c = 0b00#2 then .analog
    else if c = 0b01#2 then .floating
    else if c = 0b10#2 then .pullUpDown
    else .reservedInput
  else
    if c = 0b00#2 then .pushPull
    else if c = 0b01#2 then .openDrain
    else if c = 0b10#2 then .alternatePushPull
    else .alternateOpenDrain

/-! ### The nibble of a pin (R53) -/

/-- `pack(mode, cnf) = {cnf, mode}` (R53). -/
def pack (m c : BitVec 2) : BitVec 4 := c ++ m

/-- `unpack(n).mode = n[1:0]` (R53). -/
def unpackMode (n : BitVec 4) : BitVec 2 := n.extractLsb' 0 2

/-- `unpack(n).cnf = n[3:2]` (R53). -/
def unpackCnf (n : BitVec 4) : BitVec 2 := n.extractLsb' 2 2

/-- `nib(v, k) = v[4k+3 : 4k]` (R53). -/
def nib (v : Word) (k : Fin 8) : BitVec 4 := v.extractLsb' (4 * k.val) 4

/-- The eight nibbles of a configuration register, in order. -/
def nibbleIndices : List (Fin 8) := [0, 1, 2, 3, 4, 5, 6, 7]

/-- Nibble k of Configuration Low belongs to pin k (R52). -/
def lowPin (k : Fin 8) : Pin := ⟨k.val, by omega⟩

/-- Nibble k of Configuration High belongs to pin 8 + k (R52). -/
def highPin (k : Fin 8) : Pin := ⟨8 + k.val, by omega⟩

/-! ### The 16-bit fields of the data registers -/

/-- `v[15:0]`: the levels asked of Output Data, the set mask `BS` of Bit Set/Reset, the mask of Bit Reset (R55, R56, R57). -/
def lowHalf (v : Word) : PinMask := v.extractLsb' 0 16

/-- `v[31:16]`: the reset mask `BR` of Bit Set/Reset (R56). -/
def highHalf (v : Word) : PinMask := v.extractLsb' 16 16

/-! ### The pins -/

/-- The sixteen pins in ascending order (R84, R90; the spec's D8, log entry 8). -/
def allPins : List Pin := [0, 1, 2, 3, 4, 5, 6, 7, 8, 9, 10, 11, 12, 13, 14, 15]

/-- The range test of an injection: the pin an integer index names, if it names one (44_pin_arbiter.md R111, R114). -/
def pinOfIndex (idx : Int) : Option Pin :=
  if h : idx < 0 ∨ idx > 15 then none else some ⟨idx.toNat, by omega⟩

end Sys2Proof.Machine
end

