-- ==== Sys2Proof/Machine/Ops.lean ====
section
/-! DEFINITION. The shared operations: reading and writing the tables and the level vector, the arbiter
(44_pin_arbiter.md R110), `ApplyOutputLevel` (41_data_registers.md R80), the two ways an operation ends, and the raising
of an AddressingError (60_exceptions.md R120, R126). -/

namespace Sys2Proof.Machine

/-! ### The tables and the vector -/

/-- `MODE[p]` (R10). -/
def Port.modeOf (q : Port) (p : Pin) : BitVec 2 := q.mode.get p

/-- `CNF[p]` (R11). -/
def Port.cnfOf (q : Port) (p : Pin) : BitVec 2 := q.cnf.get p

/-- `SIG[p]` (R12). -/
def Port.level (q : Port) (p : Pin) : Level := q.sig.getLsbD p.val

/-- A 16-bit vector with bit p replaced. -/
def setPinBit (v : PinMask) (p : Pin) (l : Level) : PinMask :=
  if l then v ||| BitVec.twoPow 16 p.val else v &&& ~~~(BitVec.twoPow 16 p.val)

/-- `SIG[p] <- L` (R8, R12). -/
def Port.setLevel (q : Port) (p : Pin) (l : Level) : Port := { q with sig := setPinBit q.sig p l }

/-- `MODE[p] <- m; CNF[p] <- c` (R8, R71). -/
def Port.setConfig (q : Port) (p : Pin) (m c : BitVec 2) : Port :=
  { q with mode := q.mode.set p.val m p.isLt, cnf := q.cnf.set p.val c p.isLt }

/-! ### The configuration registers as views of the tables (R20) -/

/-- The loop of RD_CRL and RD_CRH (40_config_registers.md R70, R72) over the pins of one register. -/
def readConfig (pinAt : Fin 8 → Pin) (q : Port) : Word :=
  nibbleIndices.foldl
    (fun v k => v ||| ((pack (q.modeOf (pinAt k)) (q.cnfOf (pinAt k))).setWidth 32 <<< (4 * k.val))) 0#32

/-- The loop of WR_CRL and WR_CRH (R71, R73) over the pins of one register. -/
def writeConfig (pinAt : Fin 8 → Pin) (v : Word) (q : Port) : Port :=
  nibbleIndices.foldl (fun q k => q.setConfig (pinAt k) (unpackMode (nib v k)) (unpackCnf (nib v k))) q

/-- `zext_32(SIG)`, what Input Data and Output Data both read as (R81, R83). -/
def readLevels (q : Port) : Word := q.sig.setWidth 32

/-! ### The arbiter (R110) -/

/-- Pin p is an Input pin: the external source owns its level. The test is `MODE[p] = 0b00` and nothing else. -/
def Port.isInput (q : Port) (p : Pin) : Bool := q.modeOf p == modeInput

/-- Pin p is an Output pin: the internal driver owns its level. -/
def Port.isOutput (q : Port) (p : Pin) : Bool := !q.isInput p

/-- `OUTMASK`, with `OUTMASK[p] = (MODE[p] != 0)` (R84). -/
def outMask (q : Port) : PinMask :=
  allPins.foldl (fun m p => setPinBit m p (q.isOutput p)) 0#16

/-! ### An operation in progress -/

/-- An operation that has written and emitted nothing yet. -/
def Work.start (q : Port) : Work := { port := q, events := [], diagnostics := [] }

/-- `emit ConnSet(p, L)` (R8, R115). -/
def Work.emitConnSet (w : Work) (p : Pin) (l : Level) : Work := { w with events := w.events ++ [⟨p, l⟩] }

/-- `emit Warn(WrongDirection, p)` (R8, R121). -/
def Work.emitWarn (w : Work) (p : Pin) : Work := { w with diagnostics := w.diagnostics ++ [.wrongDirection p] }

/-- `SIG[p] <- L` inside an operation (R8). -/
def Work.setLevel (w : Work) (p : Pin) (l : Level) : Work := { w with port := w.port.setLevel p l }

/-- `ApplyOutputLevel(p, L)` (R80): dropped in silence on an Input pin; otherwise the event, then the bit, whatever the old level. -/
def applyOutputLevel (p : Pin) (l : Level) (w : Work) : Work :=
  if w.port.isInput p then w else (w.emitConnSet p l).setLevel p l

/-- The loop over the pins that every data-register write is: ascending, each pin driven to the level wanted for it, if one is
(R84, R90; the ascending order is the spec's D8, log entry 8). -/
def driveAll (want : Pin → Option Level) (w : Work) : Work :=
  allPins.foldl (fun w p => match want p with | some l => applyOutputLevel p l w | none => w) w

/-- `SetPhase(m)` (R90). -/
def setPhase (m : PinMask) (w : Work) : Work :=
  driveAll (fun p => if m.getLsbD p.val then some true else none) w

/-- `ResetPhase(m)` (R90). -/
def resetPhase (m : PinMask) (w : Work) : Work :=
  driveAll (fun p => if m.getLsbD p.val then some false else none) w

/-- The loop of WR_ODR (R84): every pin is asked for its bit of `v`. -/
def outputPhase (m : PinMask) (w : Work) : Work :=
  driveAll (fun p => some (m.getLsbD p.val)) w

/-- The body of an injection (44_pin_arbiter.md R111): the range test first, then the direction test. -/
def injectLevel (idx : Int) (l : Level) (w : Work) : Work :=
  match pinOfIndex idx with
  | none => w
  | some p => if w.port.isInput p then (w.emitConnSet p l).setLevel p l else w.emitWarn p

/-- The tables at their reset values, the levels kept (70_reset_and_hazards.md R140). -/
def Port.resetTables (q : Port) : Port :=
  allPins.foldl (fun q p => q.setConfig p modeInput cnfFloating) q

/-- All 80 bits at their defaults (R141). -/
def Port.powerOn (q : Port) : Port := { q.resetTables with sig := 0x0000#16 }

/-! ### The end of an operation -/

/-- An operation ends: its port is the port, its response is the next line of the run (R8, R159). -/
def State.answer (s : State) (i : Instr) (r : Result) (w : Work) : State :=
  { s with
    port := w.port
    transcript := s.transcript ++ [⟨i, ⟨r, w.events, w.diagnostics⟩⟩] }

/-- An operation completes with a result (R8). -/
def complete (i : Instr) (r : Result) (w : Work) (s : State) : Host.Outcome State Fault Refusal :=
  .next (s.answer i r w)

/-- `return v` of a read: no side effects beyond computing the value from the current state (R8, R38). -/
def returnData (i : Instr) (v : Word) (s : State) : Host.Outcome State Fault Refusal :=
  complete i (.data v) (Work.start s.port) s

/-- `raise AddressingError(off)` (R8, R120): the one exception of the block. Nothing is saved, no mode changes, control goes nowhere;
the operation ends with the failure and the offending offset in its response, no state written, no event (R126). There is nothing to
return from: the next stimulus is served at once (R127). -/
def raiseAddressingError (i : Instr) (off : Word) (s : State) : Host.Outcome State Fault Refusal :=
  complete i (.addressingError off) (Work.start s.port) s

end Sys2Proof.Machine
end

