-- ==== Sys2Proof/Machine/ConfigRegisters.lean ====
section
/-! DEFINITION. The configuration registers (40_config_registers.md): RD_CRL, WR_CRL, RD_CRH, WR_CRH. -/

namespace Sys2Proof.Machine

/-- RD_CRL (R70). -/
def execRdCrl (s : State) : Host.Outcome State Fault Refusal :=
  returnData .rdCrl (readConfig lowPin s.port) s

/-- WR_CRL (R71): all eight nibbles are stored; no event, whatever the change of direction (R74). -/
def execWrCrl (v : Word) (s : State) : Host.Outcome State Fault Refusal :=
  complete (.wrCrl v) .ok (Work.start (writeConfig lowPin v s.port)) s

/-- RD_CRH (R72). -/
def execRdCrh (s : State) : Host.Outcome State Fault Refusal :=
  returnData .rdCrh (readConfig highPin s.port) s

/-- WR_CRH (R73). -/
def execWrCrh (v : Word) (s : State) : Host.Outcome State Fault Refusal :=
  complete (.wrCrh v) .ok (Work.start (writeConfig highPin v s.port)) s

end Sys2Proof.Machine
end

