-- ==== Sys2Proof/Machine/DataRegisters.lean ====
section
/-! DEFINITION. The data registers (41_data_registers.md): RD_IDR, WR_IDR, RD_ODR, WR_ODR. -/

namespace Sys2Proof.Machine

/-- RD_IDR (R81). -/
def execRdIdr (s : State) : Host.Outcome State Fault Refusal :=
  returnData .rdIdr (readLevels s.port) s

/-- WR_IDR (R82): ok, and nothing happens (the spec's D6, log entry 14). -/
def execWrIdr (v : Word) (s : State) : Host.Outcome State Fault Refusal :=
  complete (.wrIdr v) .ok (Work.start s.port) s

/-- RD_ODR (R83): the same vector as Input Data; there is no output latch (10_state.md R14). -/
def execRdOdr (s : State) : Host.Outcome State Fault Refusal :=
  returnData .rdOdr (readLevels s.port) s

/-- WR_ODR (R84): bits 15:0 only. -/
def execWrOdr (v : Word) (s : State) : Host.Outcome State Fault Refusal :=
  complete (.wrOdr v) .ok (outputPhase (lowHalf v) (Work.start s.port)) s

end Sys2Proof.Machine
end

