-- ==== Sys2Proof/Machine/Injection.lean ====
section
/-! DEFINITION. External signal injection (44_pin_arbiter.md): INJECT. -/

namespace Sys2Proof.Machine

/-- INJECT (R111): ignored out of range (R114), rejected with a warning on an Output pin (R113), accepted on an Input pin (R112).
It never fails. -/
def execInject (idx : Int) (level : Level) (s : State) : Host.Outcome State Fault Refusal :=
  complete (.inject idx level) .ok (injectLevel idx level (Work.start s.port)) s

end Sys2Proof.Machine
end

