-- ==== Sys2Proof/Machine/LockAndUnmapped.lean ====
section
/-! DEFINITION. The lock register and the unmapped offsets (43_lock_and_unmapped.md): RD_LCKR, WR_LCKR, RD_UNMAPPED, WR_UNMAPPED. -/

namespace Sys2Proof.Machine

/-- RD_LCKR (R100), under the policy of the configuration (the spec's open parameter D5; log entry 4). -/
def execRdLckr (s : State) : Host.Outcome State Fault Refusal :=
  match s.config.lckrPolicy with
  | .razWi => returnData .rdLckr 0x00000000#32 s
  | .reject => raiseAddressingError .rdLckr 0x18#32 s

/-- WR_LCKR (R101), under the policy of the configuration. Under neither policy is anything locked (R155). -/
def execWrLckr (v : Word) (s : State) : Host.Outcome State Fault Refusal :=
  match s.config.lckrPolicy with
  | .razWi => complete (.wrLckr v) .ok (Work.start s.port) s
  | .reject => raiseAddressingError (.wrLckr v) 0x18#32 s

/-- RD_UNMAPPED (R102): no data comes back (the spec's D4 and D7, log entry 18). -/
def execRdUnmapped (off : Word) (s : State) : Host.Outcome State Fault Refusal :=
  raiseAddressingError (.rdUnmapped off) off s

/-- WR_UNMAPPED (R103): nothing of `v` reaches a pin or a table. -/
def execWrUnmapped (off v : Word) (s : State) : Host.Outcome State Fault Refusal :=
  raiseAddressingError (.wrUnmapped off v) off s

end Sys2Proof.Machine
end

