-- ==== Sys2Proof/Machine/Resets.lean ====
section
/-! DEFINITION. The two resets (70_reset_and_hazards.md): RESET, POR. -/

namespace Sys2Proof.Machine

/-- RESET (R140): the tables are restored, the levels are kept, no event (the spec's D12 and D16, log entries 10 and 16). -/
def execReset (s : State) : Host.Outcome State Fault Refusal :=
  complete .reset .ok (Work.start s.port.resetTables) s

/-- POR (R141): all 80 bits at their defaults, no event (the spec's D11 and D16, log entries 9 and 16). -/
def execPor (s : State) : Host.Outcome State Fault Refusal :=
  complete .por .ok (Work.start s.port.powerOn) s

end Sys2Proof.Machine
end

