-- ==== Sys2Proof/Machine/SetReset.lean ====
section
/-! DEFINITION. Masked set and reset (42_bit_set_reset.md): RD_BSRR, WR_BSRR, RD_BRR, WR_BRR. -/

namespace Sys2Proof.Machine

/-- RD_BSRR (R92): a write-only register reads as 0. -/
def execRdBsrr (s : State) : Host.Outcome State Fault Refusal :=
  returnData .rdBsrr 0x00000000#32 s

/-- WR_BSRR (R91): the set half strictly first, the reset half second, so reset wins a tie. -/
def execWrBsrr (v : Word) (s : State) : Host.Outcome State Fault Refusal :=
  complete (.wrBsrr v) .ok (resetPhase (highHalf v) (setPhase (lowHalf v) (Work.start s.port))) s

/-- RD_BRR (R95). -/
def execRdBrr (s : State) : Host.Outcome State Fault Refusal :=
  returnData .rdBrr 0x00000000#32 s

/-- WR_BRR (R94): bits 31:16 are reserved, not a second mask. -/
def execWrBrr (v : Word) (s : State) : Host.Outcome State Fault Refusal :=
  complete (.wrBrr v) .ok (resetPhase (lowHalf v) (Work.start s.port)) s

end Sys2Proof.Machine
end

