-- ==== Sys2Proof/Machine/Dispatch.lean ====
section
/-! DEFINITION. One arm per operation of 30_encoding.md R58. -/

namespace Sys2Proof.Machine

def exec (i : Instr) (s : State) : Host.Outcome State Fault Refusal :=
  match i with
  | .rdCrl => Sys2Proof.Machine.execRdCrl s
  | .wrCrl v => Sys2Proof.Machine.execWrCrl v s
  | .rdCrh => Sys2Proof.Machine.execRdCrh s
  | .wrCrh v => Sys2Proof.Machine.execWrCrh v s
  | .rdIdr => Sys2Proof.Machine.execRdIdr s
  | .wrIdr v => Sys2Proof.Machine.execWrIdr v s
  | .rdOdr => Sys2Proof.Machine.execRdOdr s
  | .wrOdr v => Sys2Proof.Machine.execWrOdr v s
  | .rdBsrr => Sys2Proof.Machine.execRdBsrr s
  | .wrBsrr v => Sys2Proof.Machine.execWrBsrr v s
  | .rdBrr => Sys2Proof.Machine.execRdBrr s
  | .wrBrr v => Sys2Proof.Machine.execWrBrr v s
  | .rdLckr => Sys2Proof.Machine.execRdLckr s
  | .wrLckr v => Sys2Proof.Machine.execWrLckr v s
  | .rdUnmapped off => Sys2Proof.Machine.execRdUnmapped off s
  | .wrUnmapped off v => Sys2Proof.Machine.execWrUnmapped off v s
  | .inject idx level => Sys2Proof.Machine.execInject idx level s
  | .reset => Sys2Proof.Machine.execReset s
  | .por => Sys2Proof.Machine.execPor s

end Sys2Proof.Machine
end

