-- ==== Sys2Proof/WellFormed.lean ====
section
/-! DEFINITION. Which terms of `Instr` are operations of the block. -/

namespace Sys2Proof

/-- The seven mapped offsets (30_encoding.md R51; 20_memory.md R34). -/
def mappedOffsets : List Word := [0x00#32, 0x04#32, 0x08#32, 0x0C#32, 0x10#32, 0x14#32, 0x18#32]

/-- An unmapped access carries an offset that is not in the map (R102, R103); every other operand is
legal at every value (10_state.md R20, R63; 20_memory.md R31). -/
def Instr.wellFormed : Instr → Bool
  | .rdUnmapped off => !mappedOffsets.contains off
  | .wrUnmapped off _ => !mappedOffsets.contains off
  | .rdCrl => true
  | .wrCrl _ => true
  | .rdCrh => true
  | .wrCrh _ => true
  | .rdIdr => true
  | .wrIdr _ => true
  | .rdOdr => true
  | .wrOdr _ => true
  | .rdBsrr => true
  | .wrBsrr _ => true
  | .rdBrr => true
  | .wrBrr _ => true
  | .rdLckr => true
  | .wrLckr _ => true
  | .inject _ _ => true
  | .reset => true
  | .por => true

end Sys2Proof
end

