-- ==== Sys2Proof/Decode.lean ====
section
/-! DEFINITION. The decoder (30_encoding.md R60), the decode key (R50), the match/mask table
(spec/opcode_table.json), and the encoder written from the same tables. -/

namespace Sys2Proof

/-- The read half of R60's dispatch: the whole 32-bit offset is compared, with no aliasing. -/
def decodeRead (off : Word) : Instr :=
  if off = 0x00#32 then .rdCrl
  else if off = 0x04#32 then .rdCrh
  else if off = 0x08#32 then .rdIdr
  else if off = 0x0C#32 then .rdOdr
  else if off = 0x10#32 then .rdBsrr
  else if off = 0x14#32 then .rdBrr
  else if off = 0x18#32 then .rdLckr
  else .rdUnmapped off

/-- The write half of R60's dispatch. -/
def decodeWrite (off v : Word) : Instr :=
  if off = 0x00#32 then .wrCrl v
  else if off = 0x04#32 then .wrCrh v
  else if off = 0x08#32 then .wrIdr v
  else if off = 0x0C#32 then .wrOdr v
  else if off = 0x10#32 then .wrBsrr v
  else if off = 0x14#32 then .wrBrr v
  else if off = 0x18#32 then .wrLckr v
  else .wrUnmapped off v

/-- The decoder (R60). It reads no state; every stimulus of R50 selects exactly one operation. What is no
stimulus of the block is rejected by name (R35, R143; log entries 6 and 7). -/
def decode : Stimulus → Except Reject Instr
  | .powerOn => .ok .por
  | .reset => .ok .reset
  | .inject idx level => .ok (.inject idx level)
  | .memRead off .word => .ok (decodeRead off)
  | .memWrite off .word v => .ok (decodeWrite off v)
  | .memRead _ .byte => .error (.narrowAccess .byte)
  | .memRead _ .halfword => .error (.narrowAccess .halfword)
  | .memWrite _ .byte _ => .error (.narrowAccess .byte)
  | .memWrite _ .halfword _ => .error (.narrowAccess .halfword)
  | .frameworkReset => .error .frameworkReset

/-! ### The decode key and the operands beside it (R50, R65)

A stimulus written as one number: K at bits 34..0, operands from bit 40 up. R65 says that the encoding of a
stimulus is K together with `wdata` or `(idx, L)`; that they share one number, and where, is the model's own
layout (DESIGN CHOICE, log entry 3). -/

/-- An integer pin index as a natural number: 0, -1, 1, -2, 2, … are 0, 1, 2, 3, 4, … (log entry 3). -/
def indexToNat : Int → Nat
  | .ofNat n => 2 * n
  | .negSucc n => 2 * n + 1

/-- The inverse of `indexToNat`. -/
def indexOfNat (n : Nat) : Int :=
  if n % 2 = 0 then .ofNat (n / 2) else .negSucc (n / 2)

/-- The stimulus a decode key selects (R50): `port` at bits 34:33, `we` at bit 32, `off` at bits 31:0; `we` and
`off` are don't-care unless `port` is 0b00. `rest` holds the operand bits: `wdata`, or the level and the index. -/
def stimulusOfKey (key : BitVec 35) (rest : Nat) : Stimulus :=
  let port := key.extractLsb' 33 2
  let off := key.extractLsb' 0 32
  if port = 0b00#2 then
    if key.getLsbD 32 then .memWrite off .word (BitVec.ofNat 32 rest) else .memRead off .word
  else if port = 0b01#2 then .inject (indexOfNat (rest / 2)) (rest % 2 == 1)
  else if port = 0b10#2 then .reset
  else .powerOn

/-- The stimulus a number stands for. Bits 39:35 belong to no field and are not read. -/
def stimulusOfWord (w : Nat) : Stimulus :=
  stimulusOfKey (BitVec.ofNat 35 w) (w / 2 ^ 40)

/-- The decoder on a number. -/
def decodeWord (w : Nat) : Except Reject Instr := decode (stimulusOfWord w)

/-- The host's view of the decoder: the operation of the opcode-table word `w` of `nbits` bits, every bit above
them zero. -/
def decodeTableWord (nbits w : Nat) : Option Instr :=
  (decodeWord (w % 2 ^ nbits)).toOption

/-! ### The encoder -/

/-- The stimulus that selects an operation (R58's column "selected by", R51's offsets). -/
def stimulusOf : Instr → Stimulus
  | .rdCrl => .memRead 0x00#32 .word
  | .wrCrl v => .memWrite 0x00#32 .word v
  | .rdCrh => .memRead 0x04#32 .word
  | .wrCrh v => .memWrite 0x04#32 .word v
  | .rdIdr => .memRead 0x08#32 .word
  | .wrIdr v => .memWrite 0x08#32 .word v
  | .rdOdr => .memRead 0x0C#32 .word
  | .wrOdr v => .memWrite 0x0C#32 .word v
  | .rdBsrr => .memRead 0x10#32 .word
  | .wrBsrr v => .memWrite 0x10#32 .word v
  | .rdBrr => .memRead 0x14#32 .word
  | .wrBrr v => .memWrite 0x14#32 .word v
  | .rdLckr => .memRead 0x18#32 .word
  | .wrLckr v => .memWrite 0x18#32 .word v
  | .rdUnmapped off => .memRead off .word
  | .wrUnmapped off v => .memWrite off .word v
  | .inject idx level => .inject idx level
  | .reset => .reset
  | .por => .powerOn

/-- A bus key: `port` = 0b00 and `we` in the three upper bits, the offset below (R50). -/
def busKey (portWe : BitVec 3) (off : Word) : BitVec 35 := portWe ++ off

/-- The decode key of an operation: spec/opcode_table.json's `match`, with the offset of an unmapped access in
bits 31:0 and every don't-care bit 0. -/
def keyOf : Instr → BitVec 35
  | .rdCrl => 0x000000000#35
  | .wrCrl _ => 0x100000000#35
  | .rdCrh => 0x000000004#35
  | .wrCrh _ => 0x100000004#35
  | .rdIdr => 0x000000008#35
  | .wrIdr _ => 0x100000008#35
  | .rdOdr => 0x00000000C#35
  | .wrOdr _ => 0x10000000C#35
  | .rdBsrr => 0x000000010#35
  | .wrBsrr _ => 0x100000010#35
  | .rdBrr => 0x000000014#35
  | .wrBrr _ => 0x100000014#35
  | .rdLckr => 0x000000018#35
  | .wrLckr _ => 0x100000018#35
  | .rdUnmapped off => busKey 0b000#3 off
  | .wrUnmapped off _ => busKey 0b001#3 off
  | .inject _ _ => 0x200000000#35
  | .reset => 0x400000000#35
  | .por => 0x600000000#35

/-- The operand bits of an operation, from bit 40 of its number up (log entry 3). -/
def operandsOf : Instr → Nat
  | .wrCrl v => v.toNat
  | .wrCrh v => v.toNat
  | .wrIdr v => v.toNat
  | .wrOdr v => v.toNat
  | .wrBsrr v => v.toNat
  | .wrBrr v => v.toNat
  | .wrLckr v => v.toNat
  | .wrUnmapped _ v => v.toNat
  | .inject idx level => 2 * indexToNat idx + level.toNat
  | .rdCrl => 0
  | .rdCrh => 0
  | .rdIdr => 0
  | .rdOdr => 0
  | .rdBsrr => 0
  | .rdBrr => 0
  | .rdLckr => 0
  | .rdUnmapped _ => 0
  | .reset => 0
  | .por => 0

/-- An operation as one number: its key, and its operands from bit 40 up. -/
def encode (i : Instr) : Nat := (keyOf i).toNat + 2 ^ 40 * operandsOf i

/-! ### The opcode table as data -/

/-- The mnemonic of an operation, as spec/opcode_table.json spells it. -/
def Instr.mnemonic : Instr → String
  | .rdCrl => "RD_CRL"
  | .wrCrl _ => "WR_CRL"
  | .rdCrh => "RD_CRH"
  | .wrCrh _ => "WR_CRH"
  | .rdIdr => "RD_IDR"
  | .wrIdr _ => "WR_IDR"
  | .rdOdr => "RD_ODR"
  | .wrOdr _ => "WR_ODR"
  | .rdBsrr => "RD_BSRR"
  | .wrBsrr _ => "WR_BSRR"
  | .rdBrr => "RD_BRR"
  | .wrBrr _ => "WR_BRR"
  | .rdLckr => "RD_LCKR"
  | .wrLckr _ => "WR_LCKR"
  | .rdUnmapped _ => "RD_UNMAPPED"
  | .wrUnmapped _ _ => "WR_UNMAPPED"
  | .inject _ _ => "INJECT"
  | .reset => "RESET"
  | .por => "POR"

/-- One row of the table: it matches a key when `key &&& mask = pattern` (R50). -/
structure OpcodeRow where
  mnemonic : String
  pattern : BitVec 35
  mask : BitVec 35
  deriving DecidableEq, Repr

/-- The rows that name one operation each. -/
def exactRows : List OpcodeRow := [
  ⟨"RD_CRL", 0x000000000#35, 0x7FFFFFFFF#35⟩,
  ⟨"WR_CRL", 0x100000000#35, 0x7FFFFFFFF#35⟩,
  ⟨"RD_CRH", 0x000000004#35, 0x7FFFFFFFF#35⟩,
  ⟨"WR_CRH", 0x100000004#35, 0x7FFFFFFFF#35⟩,
  ⟨"RD_IDR", 0x000000008#35, 0x7FFFFFFFF#35⟩,
  ⟨"WR_IDR", 0x100000008#35, 0x7FFFFFFFF#35⟩,
  ⟨"RD_ODR", 0x00000000C#35, 0x7FFFFFFFF#35⟩,
  ⟨"WR_ODR", 0x10000000C#35, 0x7FFFFFFFF#35⟩,
  ⟨"RD_BSRR", 0x000000010#35, 0x7FFFFFFFF#35⟩,
  ⟨"WR_BSRR", 0x100000010#35, 0x7FFFFFFFF#35⟩,
  ⟨"RD_BRR", 0x000000014#35, 0x7FFFFFFFF#35⟩,
  ⟨"WR_BRR", 0x100000014#35, 0x7FFFFFFFF#35⟩,
  ⟨"RD_LCKR", 0x000000018#35, 0x7FFFFFFFF#35⟩,
  ⟨"WR_LCKR", 0x100000018#35, 0x7FFFFFFFF#35⟩,
  ⟨"INJECT", 0x200000000#35, 0x600000000#35⟩,
  ⟨"RESET", 0x400000000#35, 0x600000000#35⟩,
  ⟨"POR", 0x600000000#35, 0x600000000#35⟩]

/-- The two rows with `"priority": "default"`: they match when no exact row does (R60). -/
def defaultRows : List OpcodeRow := [
  ⟨"RD_UNMAPPED", 0x000000000#35, 0x700000000#35⟩,
  ⟨"WR_UNMAPPED", 0x100000000#35, 0x700000000#35⟩]

/-- A row matches a key (R50). -/
def OpcodeRow.matchesKey (r : OpcodeRow) (key : BitVec 35) : Bool := key &&& r.mask == r.pattern

/-- The rows that select the operation of a key: the exact rows that match, or, when there is none, the default rows
that match. -/
def rowsFor (key : BitVec 35) : List OpcodeRow :=
  match exactRows.filter (·.matchesKey key) with
  | [] => defaultRows.filter (·.matchesKey key)
  | rows => rows

end Sys2Proof
end

