-- ==== Sys2Proof/Machine/Fetch.lean ====
section
/-! DEFINITION. How the machine takes its next stimulus: the head of `pending`, in the order presented (20_memory.md R40), and how the
environment presents one. The block fetches nothing itself (10_state.md R17; log entry 2). -/

namespace Sys2Proof.Machine

/-- The next stimulus and the machine with it taken off the list. -/
def takeStimulus (s : State) : Option (Stimulus × State) :=
  match s.pending with
  | [] => none
  | x :: rest => some (x, { s with pending := rest })

/-- The environment presents stimuli, to be served after those already presented. -/
def State.present (s : State) (xs : List Stimulus) : State := { s with pending := s.pending ++ xs }

/-- The refusal that answers what the decoder rejects (R35, R143). -/
def refusalOf : Reject → Refusal
  | .narrowAccess size => .narrowAccess size
  | .frameworkReset => .frameworkReset

/-- A stimulus put at the head of the list, so that the very next step serves it. -/
def placeStimulus (s : State) (x : Stimulus) : State := { s with pending := x :: s.pending }

end Sys2Proof.Machine
end

