-- ==== Sys2Proof/Machine/Step.lean ====
section
/-! DEFINITION. One step: one operation, atomic (20_memory.md R39), on the next stimulus (R40). -/

namespace Sys2Proof.Machine

/-- Serve the next stimulus. With nothing presented nothing happens: the block is passive (R47; log entry 2). -/
def step (s : State) : Host.Outcome State Fault Refusal :=
  match takeStimulus s with
  | none => .next s
  | some (x, s') =>
    match decode x with
    | .ok i => exec i s'
    | .error r => .refused (refusalOf r)

/-- The state with the stimulus of an opcode-table word placed where `step` takes its next stimulus. -/
def State.withFetchWord (s : State) (nbits w : Nat) : State :=
  placeStimulus s (stimulusOfWord (w % 2 ^ nbits))

end Sys2Proof.Machine
end

