-- ==== Sys2Proof/Machine/Pins.lean ====
section
/-! DEFINITION. The outputs of the block that are pure functions of its state or of a word: the pin-side levels and output enables
(44_pin_arbiter.md R116; 20_memory.md R33), the connection layer's level reads (R33), and the byte lanes of a collaborator (R36). -/

namespace Sys2Proof.Machine

/-- `pin_level[15:0] = SIG` (R33, R116). -/
def pinLevel (s : State) : PinMask := s.port.sig

/-- `pin_oe[15:0]`, with `pin_oe[p] = (MODE[p] != 0b00)` (R33, R116). -/
def pinOutputEnable (s : State) : PinMask := outMask s.port

/-- The connection layer's "read current level" of one pin, answered from `SIG` (R33). -/
def readCurrentLevel (s : State) (p : Pin) : Level := s.port.level p

/-- The connection layer's "bulk read-all-levels", answered from `SIG` (R33). -/
def readAllLevels (s : State) : PinMask := s.port.sig

/-- The byte a little-endian collaborator sees at offset 4k + j of the register at 4k: bits 8j+7 : 8j (R36). The block itself never
splits a word. -/
def byteLane (v : Word) (j : Fin 4) : BitVec 8 := v.extractLsb' (8 * j.val) 8

end Sys2Proof.Machine
end

