-- ==== Sys2Proof/Machine/Ports.lean ====
section
/-! DEFINITION. Several ports in one system (60_exceptions.md R133; 10_state.md R22): independent instances that share no state (log entry 20). -/

namespace Sys2Proof.Machine

/-- One port of a system serves its next stimulus; the others are not touched (R133). -/
def stepPort (ports : List State) (k : Fin ports.length) : Host.Outcome (List State) Fault Refusal :=
  match step (ports.get k) with
  | .next t => .next (ports.set k.val t)
  | .fault r => .fault r
  | .refused r => .refused r

/-- The connection layer's coupling of two ports: an event of one becomes an injection on a pin of another (R133). -/
def wire (e : ConnSet) (target : Pin) : Stimulus := .inject (Int.ofNat target.val) e.level

end Sys2Proof.Machine
end

