-- ==== Sys2Proof/Machine/Lines.lean ====
section
/-! DEFINITION. The register map as data (30_encoding.md R51, R61), the lines a run is written in (R65) and the shorthands (R66). -/

namespace Sys2Proof.Machine

/-- The seven registers (R51), by the spec's short names. -/
inductive RegName where
  | crl
  | crh
  | idr
  | odr
  | bsrr
  | brr
  | lckr
  deriving DecidableEq, Repr

/-- The directions the register map lists for a register (R51). They bar nothing: R63 (c). -/
inductive Access where
  | readWrite
  | readOnly
  | writeOnly
  | unimplemented
  deriving DecidableEq, Repr

/-- `off(reg)` (R51, R65). -/
def RegName.offset : RegName → Word
  | .crl => 0x00#32
  | .crh => 0x04#32
  | .idr => 0x08#32
  | .odr => 0x0C#32
  | .bsrr => 0x10#32
  | .brr => 0x14#32
  | .lckr => 0x18#32

/-- The map's column "Access" (R51). -/
def RegName.access : RegName → Access
  | .crl => .readWrite
  | .crh => .readWrite
  | .idr => .readOnly
  | .odr => .readWrite
  | .bsrr => .writeOnly
  | .brr => .writeOnly
  | .lckr => .unimplemented

/-- The bits of a register that are not reserved (R51 "Width meaningful", R52, R54 to R57, R59, R61). -/
def RegName.definedBits : RegName → Word
  | .crl => 0xFFFFFFFF#32
  | .crh => 0xFFFFFFFF#32
  | .idr => 0x0000FFFF#32
  | .odr => 0x0000FFFF#32
  | .bsrr => 0xFFFFFFFF#32
  | .brr => 0x0000FFFF#32
  | .lckr => 0x00000000#32

/-- The map's column "Reset value" where it gives a number (R51); the 0 of Output Data holds after power-on only (90 C1). -/
def RegName.resetValue : RegName → Option Word
  | .crl => some 0x44444444#32
  | .crh => some 0x44444444#32
  | .idr => none
  | .odr => some 0x00000000#32
  | .bsrr => none
  | .brr => none
  | .lckr => none

/-- One line of a run (R65). -/
inductive Line where
  | rd (reg : RegName)
  | wr (reg : RegName) (v : Word)
  | rdAt (off : Word)
  | wrAt (off : Word) (v : Word)
  | inj (idx : Int) (level : Level)
  | rst
  | por
  deriving DecidableEq, Repr

/-- The stimulus a line stands for (R65). -/
def Line.stimulus : Line → Stimulus
  | .rd reg => .memRead reg.offset .word
  | .wr reg v => .memWrite reg.offset .word v
  | .rdAt off => .memRead off .word
  | .wrAt off v => .memWrite off .word v
  | .inj idx level => .inject idx level
  | .rst => .reset
  | .por => .powerOn

/-- `SETPIN p` (R66). -/
def setPinLine (p : Pin) : Line := .wr .bsrr (1#32 <<< p.val)

/-- `CLRPIN p` (R66). -/
def clrPinLine (p : Pin) : Line := .wr .brr (1#32 <<< p.val)

/-- The configuration register that holds pin p's nibble (R52). -/
def configRegOf (p : Pin) : RegName := if p.val < 8 then .crl else .crh

/-- The word that `CFGPIN p, mode, cnf` writes back, from the word `v` it read (R66). -/
def cfgPinWord (p : Pin) (m c : BitVec 2) (v : Word) : Word :=
  (v &&& ~~~(0xF#32 <<< (4 * (p.val % 8)))) ||| ((pack m c).setWidth 32 <<< (4 * (p.val % 8)))

/-- The first stimulus of `CFGPIN` (R66): the read. -/
def cfgPinReadLine (p : Pin) : Line := .rd (configRegOf p)

/-- The second stimulus of `CFGPIN` (R66): the write back, given the word read. The two are not one atomic step. -/
def cfgPinWriteLine (p : Pin) (m c : BitVec 2) (v : Word) : Line := .wr (configRegOf p) (cfgPinWord p m c v)

end Sys2Proof.Machine
end

