-- ==== Sys2Proof/Machine/Runs.lean ====
section
/-! DEFINITION. A run: operations in the order presented (20_memory.md R40; 70_reset_and_hazards.md R159). -/

namespace Sys2Proof.Machine

/-- Run operations one after another, each from the state the one before it left (R40). -/
def runOps : List Instr → State → Host.Outcome State Fault Refusal
  | [], s => .next s
  | i :: is, s =>
    match exec i s with
    | .next t => runOps is t
    | .fault r => .fault r
    | .refused r => .refused r

end Sys2Proof.Machine
end

