-- ==== Sys2Proof/Safety.lean ====
section
/-! DEFINITION. What counts as a sound run, in the terms the statements use: the run so far accounts for every bit of the block, and
every response in it is one the rules allow its operation. -/

namespace Sys2Proof.Machine

/-! ### The block's state recomputed from the run -/

/-- Replay events on a 16-bit vector (44_pin_arbiter.md R115). -/
def replayEvents (es : List ConnSet) (v : PinMask) : PinMask :=
  es.foldl (fun v e => setPinBit v e.pin e.level) v

/-- The levels that the events since the last POR leave on a vector of zeros (R115). -/
def levelsOfRun (es : List Entry) : PinMask :=
  es.foldl (fun v e => if e.op = .por then 0#16 else replayEvents e.response.events v) 0#16

/-- What one operation makes of the last value written to Configuration Low since the last reset (10_state.md R21 (d)). -/
def lastLow (old : Word) : Instr → Word
  | .wrCrl v => v
  | .reset => 0x44444444#32
  | .por => 0x44444444#32
  | .rdCrl => old
  | .rdCrh => old
  | .wrCrh _ => old
  | .rdIdr => old
  | .wrIdr _ => old
  | .rdOdr => old
  | .wrOdr _ => old
  | .rdBsrr => old
  | .wrBsrr _ => old
  | .rdBrr => old
  | .wrBrr _ => old
  | .rdLckr => old
  | .wrLckr _ => old
  | .rdUnmapped _ => old
  | .wrUnmapped _ _ => old
  | .inject _ _ => old

/-- The same for Configuration High. -/
def lastHigh (old : Word) : Instr → Word
  | .wrCrh v => v
  | .reset => 0x44444444#32
  | .por => 0x44444444#32
  | .rdCrl => old
  | .wrCrl _ => old
  | .rdCrh => old
  | .rdIdr => old
  | .wrIdr _ => old
  | .rdOdr => old
  | .wrOdr _ => old
  | .rdBsrr => old
  | .wrBsrr _ => old
  | .rdBrr => old
  | .wrBrr _ => old
  | .rdLckr => old
  | .wrLckr _ => old
  | .rdUnmapped _ => old
  | .wrUnmapped _ _ => old
  | .inject _ _ => old

/-- The last value written to Configuration Low in a run since its last reset, 0x44444444 if none (R21 (d)). -/
def configLowOfRun (es : List Entry) : Word := es.foldl (fun v e => lastLow v e.op) 0x44444444#32

/-- The last value written to Configuration High in a run since its last reset, 0x44444444 if none (R21 (d)). -/
def configHighOfRun (es : List Entry) : Word := es.foldl (fun v e => lastHigh v e.op) 0x44444444#32

/-- Replaying the events of the run gives the levels (R115). -/
def EventsAccountForLevels (s : State) : Prop := levelsOfRun s.transcript = s.port.sig

/-- The configuration registers read as last written (R21 (d)). -/
def ConfigReadsAsLastWritten (s : State) : Prop :=
  readConfig lowPin s.port = configLowOfRun s.transcript ∧ readConfig highPin s.port = configHighOfRun s.transcript

/-! ### The responses the rules allow -/

/-- The response is data and nothing else. -/
def Response.onlyData (r : Response) (v : Word) : Prop := r = ⟨.data v, [], []⟩

/-- The response is a plain ok: no event, no diagnostic. -/
def Response.silent (r : Response) : Prop := r = ⟨.ok, [], []⟩

/-- The response is the failure and nothing else (R120, R126). -/
def Response.onlyError (r : Response) (off : Word) : Prop := r = ⟨.addressingError off, [], []⟩

/-- The response is ok with these events and no diagnostic. -/
def Response.onlyEvents (r : Response) (es : List ConnSet) : Prop := r = ⟨.ok, es, []⟩

/-- The events of one phase of a drive write: the pins of a mask that are Output pins, ascending, each at its level (R84, R90; the ascending
order is the spec's D8, log entry 8; that each pin gives its event whatever its old level is D9, log entry 13). -/
def phaseEvents (asked out : Pin → Bool) (level : Pin → Level) : List ConnSet :=
  (allPins.filter fun p => asked p && out p).map fun p => ⟨p, level p⟩

/-- The responses that the rules R70 to R141 allow an operation under a policy: those that it gives from some 80 bits. Of the 80 bits a drive
write shows which pins are Output pins (`out`), and an injection in range whether its pin is one. -/
def ResponseAllowed (c : Config) (r : Response) : Instr → Prop
  | .rdCrl => ∃ v, r.onlyData v
  | .wrCrl _ => r.silent
  | .rdCrh => ∃ v, r.onlyData v
  | .wrCrh _ => r.silent
  | .rdIdr => ∃ v, v &&& ~~~(RegName.definedBits .idr) = 0#32 ∧ r.onlyData v
  | .wrIdr _ => r.silent
  | .rdOdr => ∃ v, v &&& ~~~(RegName.definedBits .odr) = 0#32 ∧ r.onlyData v
  | .wrOdr v => ∃ out : Pin → Bool, r.onlyEvents (phaseEvents (fun _ => true) out fun p => v.getLsbD p.val)
  | .rdBsrr => r.onlyData 0#32
  | .wrBsrr v => ∃ out : Pin → Bool, r.onlyEvents
      (phaseEvents (fun p => v.getLsbD p.val) out (fun _ => true) ++ phaseEvents (fun p => v.getLsbD (16 + p.val)) out fun _ => false)
  | .rdBrr => r.onlyData 0#32
  | .wrBrr v => ∃ out : Pin → Bool, r.onlyEvents (phaseEvents (fun p => v.getLsbD p.val) out fun _ => false)
  | .rdLckr => c.lckrPolicy = .razWi ∧ r.onlyData 0#32 ∨ c.lckrPolicy = .reject ∧ r.onlyError 0x18#32
  | .wrLckr _ => c.lckrPolicy = .razWi ∧ r.silent ∨ c.lckrPolicy = .reject ∧ r.onlyError 0x18#32
  | .rdUnmapped off => r.onlyError off
  | .wrUnmapped off _ => r.onlyError off
  | .inject idx l =>
    (idx < 0 ∨ 15 < idx) ∧ r.silent ∨
      ∃ p : Pin, idx = (p.val : Int) ∧ (r = ⟨.ok, [⟨p, l⟩], []⟩ ∨ r = ⟨.ok, [], [.wrongDirection p]⟩)
  | .reset => r.silent
  | .por => r.silent

/-- Every line of the run is an operation of the block with a response the rules allow it under the machine's policy, which no operation writes. -/
def RunIsLawful (s : State) : Prop :=
  ∀ e ∈ s.transcript, e.op.wellFormed = true ∧ ResponseAllowed s.config e.response e.op

/-! ### Predicates on operations -/

/-- The operations that write the tables `MODE` and `CNF` (10_state.md R10, R11). -/
def writesTables : Instr → Bool
  | .wrCrl _ => true
  | .wrCrh _ => true
  | .reset => true
  | .por => true
  | .rdCrl => false
  | .rdCrh => false
  | .rdIdr => false
  | .wrIdr _ => false
  | .rdOdr => false
  | .wrOdr _ => false
  | .rdBsrr => false
  | .wrBsrr _ => false
  | .rdBrr => false
  | .wrBrr _ => false
  | .rdLckr => false
  | .wrLckr _ => false
  | .rdUnmapped _ => false
  | .wrUnmapped _ _ => false
  | .inject _ _ => false

/-- The bus reads (20_memory.md R38). -/
def isBusRead : Instr → Bool
  | .rdCrl => true
  | .rdCrh => true
  | .rdIdr => true
  | .rdOdr => true
  | .rdBsrr => true
  | .rdBrr => true
  | .rdLckr => true
  | .rdUnmapped _ => true
  | .wrCrl _ => false
  | .wrCrh _ => false
  | .wrIdr _ => false
  | .wrOdr _ => false
  | .wrBsrr _ => false
  | .wrBrr _ => false
  | .wrLckr _ => false
  | .wrUnmapped _ _ => false
  | .inject _ _ => false
  | .reset => false
  | .por => false

/-- The bus writes. -/
def isBusWrite : Instr → Bool
  | .wrCrl _ => true
  | .wrCrh _ => true
  | .wrIdr _ => true
  | .wrOdr _ => true
  | .wrBsrr _ => true
  | .wrBrr _ => true
  | .wrLckr _ => true
  | .wrUnmapped _ _ => true
  | .rdCrl => false
  | .rdCrh => false
  | .rdIdr => false
  | .rdOdr => false
  | .rdBsrr => false
  | .rdBrr => false
  | .rdLckr => false
  | .rdUnmapped _ => false
  | .inject _ _ => false
  | .reset => false
  | .por => false

/-- The drive writes: the three operations that ask `ApplyOutputLevel` of pins (41_data_registers.md R80). -/
def isDriveWrite : Instr → Bool
  | .wrOdr _ => true
  | .wrBsrr _ => true
  | .wrBrr _ => true
  | .rdCrl => false
  | .wrCrl _ => false
  | .rdCrh => false
  | .wrCrh _ => false
  | .rdIdr => false
  | .wrIdr _ => false
  | .rdOdr => false
  | .rdBsrr => false
  | .rdBrr => false
  | .rdLckr => false
  | .wrLckr _ => false
  | .rdUnmapped _ => false
  | .wrUnmapped _ _ => false
  | .inject _ _ => false
  | .reset => false
  | .por => false

/-- The two reads that return the configuration tables: the only readers of `CNF` (10_state.md R11). -/
def readsTables : Instr → Bool
  | .rdCrl => true
  | .rdCrh => true
  | .wrCrl _ => false
  | .wrCrh _ => false
  | .rdIdr => false
  | .wrIdr _ => false
  | .rdOdr => false
  | .wrOdr _ => false
  | .rdBsrr => false
  | .wrBsrr _ => false
  | .rdBrr => false
  | .wrBrr _ => false
  | .rdLckr => false
  | .wrLckr _ => false
  | .rdUnmapped _ => false
  | .wrUnmapped _ _ => false
  | .inject _ _ => false
  | .reset => false
  | .por => false

end Sys2Proof.Machine
end

