-- ==== Sys2Proof/Certificates/Slice0/Obligations.lean ====
section
/-! DEFINITION. The statements for the provers. Each says which rule of spec/ it formalises; where it rests on a decision the spec marks as its
own (D<n> of 92_eei_decisions.md) or on a choice of the model, its docstring names it and the log entry. -/

open Sys2Proof Sys2Proof.Machine

/-! ### Decoding and encoding -/

/-- 30_encoding.md R60: which operation each stimulus selects. The comparison is on the whole offset; every other offset is unmapped, and for it the table's default
rows match because no exact row does. -/
def Obligations.DispatchByWholeOffset : Prop :=
  decode .powerOn = .ok .por ∧ decode .reset = .ok .reset ∧
  (∀ idx l, decode (.inject idx l) = .ok (.inject idx l)) ∧
  (∀ off : Word, decode (.memRead off .word) = .ok
    (match off.toNat with
      | 0x00 => .rdCrl | 0x04 => .rdCrh | 0x08 => .rdIdr | 0x0C => .rdOdr | 0x10 => .rdBsrr | 0x14 => .rdBrr
      | 0x18 => .rdLckr | _ => .rdUnmapped off)) ∧
  (∀ off v : Word, decode (.memWrite off .word v) = .ok
    (match off.toNat with
      | 0x00 => .wrCrl v | 0x04 => .wrCrh v | 0x08 => .wrIdr v | 0x0C => .wrOdr v | 0x10 => .wrBsrr v | 0x14 => .wrBrr v
      | 0x18 => .wrLckr v | _ => .wrUnmapped off v)) ∧
  (∀ off : Word, off.toNat ∉ [0x00, 0x04, 0x08, 0x0C, 0x10, 0x14, 0x18] →
    (rowsFor (busKey 0b000#3 off)).map (·.mnemonic) = ["RD_UNMAPPED"] ∧
    (rowsFor (busKey 0b001#3 off)).map (·.mnemonic) = ["WR_UNMAPPED"])

/-- Every well-formed operation, with every operand at every value, is what its encoding decodes to (30_encoding.md R50, R65). That the operands
share one number with the key is the model's layout (log entry 3). -/
def Obligations.DecodeOfEncodeIsTheOperation : Prop :=
  ∀ i : Instr, i.wellFormed = true → decodeWord (encode i) = .ok i

/-- Each stimulus has one meaning: what it decodes to is a well-formed operation whose own stimulus is the one presented (30_encoding.md R58, R60). -/
def Obligations.EncodeOfDecodeIsTheStimulus : Prop :=
  ∀ (x : Stimulus) (i : Instr), decode x = .ok i → i.wellFormed = true ∧ stimulusOf i = x

/-- 30_encoding.md R50, R60 and spec/opcode_table.json: for every decode key exactly one row of the table is selected, and it is the row of the operation
the decoder gives. -/
def Obligations.DecoderAgreesWithOpcodeTable : Prop :=
  ∀ (key : BitVec 35) (rest : Nat), ∃ (i : Instr) (row : OpcodeRow),
    decode (stimulusOfKey key rest) = .ok i ∧ rowsFor key = [row] ∧ row.mnemonic = i.mnemonic

/-- Words written out from the spec's keys (95_test_vectors.md, section 3) and operands, one per family, decode to the operation they stand for. -/
def Obligations.WrittenWordsDecode : Prop :=
  decodeTableWord 40 0x000000004 = some .rdCrh ∧
  decodeWord (0x100000000 + 2 ^ 40 * 0x44443444) = .ok (.wrCrl 0x44443444#32) ∧
  decodeWord (0x10000000C + 2 ^ 40 * 0xFFFFFFFF) = .ok (.wrOdr 0xFFFFFFFF#32) ∧
  decodeWord (0x100000010 + 2 ^ 40 * 0x00200020) = .ok (.wrBsrr 0x00200020#32) ∧
  decodeWord (0x100000018 + 2 ^ 40 * 0x0001FFFF) = .ok (.wrLckr 0x0001FFFF#32) ∧
  decodeTableWord 40 0x00000001C = some (.rdUnmapped 0x1C#32) ∧
  decodeTableWord 40 0x200000000 = some (.inject 0 false) ∧
  decodeTableWord 40 0x400000000 = some .reset ∧
  decodeTableWord 40 0x600000000 = some .por

/-- 30_encoding.md R53: packing and unpacking the nibble of a pin lose nothing, and the mode is the lower pair. -/
def Obligations.NibblePacksAndUnpacks : Prop :=
  (∀ m c : BitVec 2, unpackMode (pack m c) = m ∧ unpackCnf (pack m c) = c) ∧
  (∀ n : BitVec 4, pack (unpackMode n) (unpackCnf n) = n) ∧
  (∀ m c : BitVec 2, (pack m c).toNat = 4 * c.toNat + m.toNat) ∧
  (∀ (v : Word) (k : Fin 8), (nib v k).toNat = v.toNat / 2 ^ (4 * k.val) % 16)

/-! ### The step -/

/-- When the next stimulus decodes to an operation, a step is that operation, on the state with the stimulus taken off the list (20_memory.md R39, R40). -/
def Obligations.StepRunsTheDecodedOperation : Prop :=
  ∀ (s : State) (x : Stimulus) (rest : List Stimulus) (i : Instr),
    s.pending = x :: rest → decode x = .ok i → step s = exec i { s with pending := rest }

/-- With nothing presented a step changes nothing (the block is passive, 20_memory.md R47; log entry 2). An access narrower than 32 bits is refused by name
(20_memory.md R35, 93 U14; log entry 6), and so is a reset of the connection framework alone (70_reset_and_hazards.md R143; log entry 7). -/
def Obligations.StepRefusesWhatIsNoStimulus : Prop :=
  ∀ (s : State) (rest : List Stimulus),
    (s.pending = [] → step s = .next s) ∧
    (s.pending = .frameworkReset :: rest → step s = .refused .frameworkReset) ∧
    (∀ (off : Word) (size : AccessSize), size ≠ .word → s.pending = .memRead off size :: rest →
      step s = .refused (.narrowAccess size)) ∧
    (∀ (off v : Word) (size : AccessSize), size ≠ .word → s.pending = .memWrite off size v :: rest →
      step s = .refused (.narrowAccess size))

/-- 20_memory.md R40: stimuli are served in the order presented, each from the state the one before it left, none merged or dropped; the stimuli behind them wait. -/
def Obligations.StimuliAreServedInOrder : Prop :=
  ∀ (is : List Instr) (s : State) (rest : List Stimulus),
    (∀ i ∈ is, i.wellFormed = true) → s.pending = is.map stimulusOf ++ rest →
    Sys2Proof.core.run is.length s = runOps is { s with pending := rest } ∧
    ∃ t : State, runOps is { s with pending := rest } = .next t ∧ t.pending = rest ∧
      t.transcript.length = s.transcript.length + is.length ∧
      t.transcript.map (·.op) = s.transcript.map (·.op) ++ is

/-- 70_reset_and_hazards.md R141 and 10_state.md R23: what the initial state holds. The levels at power-on are the spec's decision D11 (log entry 9); the policy is the
spec's default (D5, log entry 4); that nothing is presented or answered yet is log entries 1 and 2. -/
def Obligations.ResetStateIsAfterPowerOn : Prop :=
  (∀ p : Pin, State.reset.port.modeOf p = 0b00#2 ∧ State.reset.port.cnfOf p = 0b01#2 ∧ State.reset.port.level p = false) ∧
  readConfig lowPin State.reset.port = 0x44444444#32 ∧ readConfig highPin State.reset.port = 0x44444444#32 ∧
  State.reset.config.lckrPolicy = .razWi ∧ State.reset.pending = [] ∧ State.reset.transcript = [] ∧
  State.reset.port = State.reset.port.powerOn

/-! ### The configuration registers -/

/-- 40_config_registers.md R70. -/
def Obligations.ReadConfigLowReturnsTheTables : Prop :=
  ∀ s : State, ∃ v : Word,
    exec .rdCrl s = .next { s with transcript := s.transcript ++ [⟨.rdCrl, ⟨.data v, [], []⟩⟩] } ∧
    (∀ p : Pin, p.val < 8 →
      v.extractLsb' (4 * p.val) 2 = s.port.modeOf p ∧ v.extractLsb' (4 * p.val + 2) 2 = s.port.cnfOf p) ∧
    ((∀ p : Pin, p.val < 8 → s.port.modeOf p = 0b00#2 ∧ s.port.cnfOf p = 0b01#2) → v = 0x44444444#32)

/-- 40_config_registers.md R72. -/
def Obligations.ReadConfigHighReturnsTheTables : Prop :=
  ∀ s : State, ∃ v : Word,
    exec .rdCrh s = .next { s with transcript := s.transcript ++ [⟨.rdCrh, ⟨.data v, [], []⟩⟩] } ∧
    (∀ p : Pin, 8 ≤ p.val →
      v.extractLsb' (4 * (p.val - 8)) 2 = s.port.modeOf p ∧ v.extractLsb' (4 * (p.val - 8) + 2) 2 = s.port.cnfOf p) ∧
    ((∀ p : Pin, 8 ≤ p.val → s.port.modeOf p = 0b00#2 ∧ s.port.cnfOf p = 0b01#2) → v = 0x44444444#32)

/-- 40_config_registers.md R71: the fields stored, the entries of pins 8 to 15 and the levels untouched, no event and no diagnostic. -/
def Obligations.WriteConfigLowStoresEightPins : Prop :=
  ∀ (s : State) (v : Word), ∃ q : Port,
    exec (.wrCrl v) s = .next { s with port := q, transcript := s.transcript ++ [⟨.wrCrl v, ⟨.ok, [], []⟩⟩] } ∧
    (∀ p : Pin, p.val < 8 → q.modeOf p = v.extractLsb' (4 * p.val) 2 ∧ q.cnfOf p = v.extractLsb' (4 * p.val + 2) 2) ∧
    (∀ p : Pin, 8 ≤ p.val → q.modeOf p = s.port.modeOf p ∧ q.cnfOf p = s.port.cnfOf p) ∧
    q.sig = s.port.sig

/-- 40_config_registers.md R73. -/
def Obligations.WriteConfigHighStoresEightPins : Prop :=
  ∀ (s : State) (v : Word), ∃ q : Port,
    exec (.wrCrh v) s = .next { s with port := q, transcript := s.transcript ++ [⟨.wrCrh v, ⟨.ok, [], []⟩⟩] } ∧
    (∀ p : Pin, 8 ≤ p.val →
      q.modeOf p = v.extractLsb' (4 * (p.val - 8)) 2 ∧ q.cnfOf p = v.extractLsb' (4 * (p.val - 8) + 2) 2) ∧
    (∀ p : Pin, p.val < 8 → q.modeOf p = s.port.modeOf p ∧ q.cnfOf p = s.port.cnfOf p) ∧
    q.sig = s.port.sig

/-- 40_config_registers.md R75, over any run: after a write of `v`, whatever operations follow that are no write of the same register and no reset, a read returns `v`. -/
def Obligations.ConfigRoundTripOverAnyRun : Prop :=
  ∀ (s : State) (v : Word) (is : List Instr),
    ((∀ i ∈ is, writesTables i = false ∨ ∃ w, i = .wrCrh w) →
      ∃ t : State, runOps (.wrCrl v :: is ++ [.rdCrl]) s = .next t ∧
        t.transcript.getLast? = some ⟨.rdCrl, ⟨.data v, [], []⟩⟩) ∧
    ((∀ i ∈ is, writesTables i = false ∨ ∃ w, i = .wrCrl w) →
      ∃ t : State, runOps (.wrCrh v :: is ++ [.rdCrh]) s = .next t ∧
        t.transcript.getLast? = some ⟨.rdCrh, ⟨.data v, [], []⟩⟩)

/-! ### The data registers -/

/-- 41_data_registers.md R81. -/
def Obligations.ReadInputDataReturnsLevels : Prop :=
  ∀ s : State, ∃ v : Word,
    exec .rdIdr s = .next { s with transcript := s.transcript ++ [⟨.rdIdr, ⟨.data v, [], []⟩⟩] } ∧
    (∀ p : Pin, v.getLsbD p.val = s.port.level p) ∧ v.extractLsb' 16 16 = 0#16

/-- 41_data_registers.md R83: the same value as Input Data, in every state. -/
def Obligations.ReadOutputDataEqualsInputData : Prop :=
  ∀ s : State, ∃ v : Word,
    exec .rdOdr s = .next { s with transcript := s.transcript ++ [⟨.rdOdr, ⟨.data v, [], []⟩⟩] } ∧
    exec .rdIdr s = .next { s with transcript := s.transcript ++ [⟨.rdIdr, ⟨.data v, [], []⟩⟩] } ∧
    (∀ p : Pin, v.getLsbD p.val = s.port.level p) ∧ v.extractLsb' 16 16 = 0#16

/-- 41_data_registers.md, section 2: a write to Input Data is ok and does nothing (the spec's decision D6, log entry 14). -/
def Obligations.WriteInputDataDoesNothing : Prop :=
  ∀ (s : State) (v : Word),
    exec (.wrIdr v) s = .next { s with transcript := s.transcript ++ [⟨.wrIdr v, ⟨.ok, [], []⟩⟩] }

/-- 41_data_registers.md, section 3: the resulting levels, pin by pin and in closed form, and one event for each Output pin. The ascending order of the events is the spec's
decision D8 (log entry 8); that an event is emitted for an unchanged level is D9 (log entry 13). -/
def Obligations.WriteOutputDataDrivesOutputPins : Prop :=
  ∀ (s : State) (v : Word), ∃ sig : PinMask,
    exec (.wrOdr v) s = .next { s with
      port := { s.port with sig := sig }
      transcript := s.transcript ++ [⟨.wrOdr v,
        ⟨.ok, ((List.finRange 16).filter fun p => s.port.modeOf p != 0b00#2).map fun p => ⟨p, v.getLsbD p.val⟩, []⟩⟩] } ∧
    (∀ p : Pin, sig.getLsbD p.val = if s.port.modeOf p ≠ 0b00#2 then v.getLsbD p.val else s.port.level p) ∧
    sig = (s.port.sig &&& ~~~(outMask s.port)) ||| (v.extractLsb' 0 16 &&& outMask s.port)

/-! ### Masked set and reset -/

/-- 42_bit_set_reset.md, R91: set half first, reset half second, so reset wins; the highs of the set half come before the lows of the reset half. The ascending order inside a half is
the spec's decision D8 (log entry 8); events for unchanged levels are D9 (log entry 13). -/
def Obligations.WriteBitSetResetSetsThenResets : Prop :=
  ∀ (s : State) (v : Word), ∃ sig : PinMask,
    exec (.wrBsrr v) s = .next { s with
      port := { s.port with sig := sig }
      transcript := s.transcript ++ [⟨.wrBsrr v,
        ⟨.ok,
          ((List.finRange 16).filter fun p => v.getLsbD p.val && s.port.modeOf p != 0b00#2).map (fun p => ⟨p, true⟩) ++
          ((List.finRange 16).filter fun p => v.getLsbD (16 + p.val) && s.port.modeOf p != 0b00#2).map (fun p => ⟨p, false⟩),
          []⟩⟩] } ∧
    (∀ p : Pin, sig.getLsbD p.val =
      if s.port.modeOf p ≠ 0b00#2 ∧ v.getLsbD (16 + p.val) then false
      else if s.port.modeOf p ≠ 0b00#2 ∧ v.getLsbD p.val then true
      else s.port.level p) ∧
    sig = (s.port.sig ||| (v.extractLsb' 0 16 &&& outMask s.port)) &&& ~~~(v.extractLsb' 16 16 &&& outMask s.port)

/-- 42_bit_set_reset.md, R94: bits 31:16 are no second mask. Event order D8 (log entry 8), unchanged levels D9 (log entry 13). -/
def Obligations.WriteBitResetDrivesLow : Prop :=
  ∀ (s : State) (v : Word), ∃ sig : PinMask,
    exec (.wrBrr v) s = .next { s with
      port := { s.port with sig := sig }
      transcript := s.transcript ++ [⟨.wrBrr v,
        ⟨.ok, ((List.finRange 16).filter fun p => v.getLsbD p.val && s.port.modeOf p != 0b00#2).map fun p => ⟨p, false⟩, []⟩⟩] } ∧
    (∀ p : Pin, sig.getLsbD p.val = if s.port.modeOf p ≠ 0b00#2 ∧ v.getLsbD p.val then false else s.port.level p) ∧
    sig = s.port.sig &&& ~~~(v.extractLsb' 0 16 &&& outMask s.port)

/-- 42_bit_set_reset.md R92 and R95: the write-only registers read as 0 in every state. -/
def Obligations.WriteOnlyRegistersReadZero : Prop :=
  ∀ s : State,
    exec .rdBsrr s = .next { s with transcript := s.transcript ++ [⟨.rdBsrr, ⟨.data 0x00000000#32, [], []⟩⟩] } ∧
    exec .rdBrr s = .next { s with transcript := s.transcript ++ [⟨.rdBrr, ⟨.data 0x00000000#32, [], []⟩⟩] }

/-- 42_bit_set_reset.md, R93 (a) and (b): Bit Reset is the reset half of Bit Set/Reset, in state and events; and a Bit Set/Reset write is its set half followed by the Bit Reset write of its reset half. -/
def Obligations.BitResetIsTheResetHalf : Prop :=
  (∀ (s : State) (m : BitVec 16), ∃ (q : Port) (es : List ConnSet),
    exec (.wrBsrr (m ++ 0#16)) s = .next { s with port := q, transcript := s.transcript ++ [⟨.wrBsrr (m ++ 0#16), ⟨.ok, es, []⟩⟩] } ∧
    exec (.wrBrr (0#16 ++ m)) s = .next { s with port := q, transcript := s.transcript ++ [⟨.wrBrr (0#16 ++ m), ⟨.ok, es, []⟩⟩] }) ∧
  (∀ (s : State) (bs br : BitVec 16), ∃ (q : Port) (es fs : List ConnSet),
    exec (.wrBsrr (br ++ bs)) s = .next { s with port := q, transcript := s.transcript ++ [⟨.wrBsrr (br ++ bs), ⟨.ok, es ++ fs, []⟩⟩] } ∧
    runOps [.wrBsrr (0#16 ++ bs), .wrBrr (0#16 ++ br)] s = .next { s with
      port := q
      transcript := s.transcript ++ [⟨.wrBsrr (0#16 ++ bs), ⟨.ok, es, []⟩⟩, ⟨.wrBrr (0#16 ++ br), ⟨.ok, fs, []⟩⟩] })

/-- 42_bit_set_reset.md, R93 (c): with every pin an Output pin, writing `w` to Output Data and `~w` over `w` to Bit Set/Reset leave the same levels and emit the same sixteen events, in another order. -/
def Obligations.OutputDataEqualsFullBitSetReset : Prop :=
  ∀ (s : State) (w : BitVec 16), (∀ p : Pin, s.port.modeOf p ≠ 0b00#2) →
    ∃ (q : Port) (es fs : List ConnSet),
      exec (.wrOdr (0#16 ++ w)) s = .next { s with port := q, transcript := s.transcript ++ [⟨.wrOdr (0#16 ++ w), ⟨.ok, es, []⟩⟩] } ∧
      exec (.wrBsrr (~~~w ++ w)) s = .next { s with port := q, transcript := s.transcript ++ [⟨.wrBsrr (~~~w ++ w), ⟨.ok, fs, []⟩⟩] } ∧
      es.Perm fs ∧ es.length = 16 ∧ q.sig = w

/-! ### The lock register and the unmapped offsets -/

/-- 43_lock_and_unmapped.md, section 1: both policies of the open parameter `LCKR_POLICY` (the spec's decision D5, log entry 4). That a failure is an answer of a next state is log entry 5. -/
def Obligations.LockRegisterUnderBothPolicies : Prop :=
  ∀ (s : State) (v : Word),
    (s.config.lckrPolicy = .razWi →
      exec .rdLckr s = .next { s with transcript := s.transcript ++ [⟨.rdLckr, ⟨.data 0x00000000#32, [], []⟩⟩] } ∧
      exec (.wrLckr v) s = .next { s with transcript := s.transcript ++ [⟨.wrLckr v, ⟨.ok, [], []⟩⟩] }) ∧
    (s.config.lckrPolicy = .reject →
      exec .rdLckr s = .next { s with transcript := s.transcript ++ [⟨.rdLckr, ⟨.addressingError 0x18#32, [], []⟩⟩] } ∧
      exec (.wrLckr v) s = .next { s with transcript := s.transcript ++ [⟨.wrLckr v, ⟨.addressingError 0x18#32, [], []⟩⟩] })

/-- 70_reset_and_hazards.md, R155: whatever is written to the lock register, however often and under either policy, a following configuration write stores what it would have stored. -/
def Obligations.LockRegisterNeverLocks : Prop :=
  ∀ (s : State) (vs : List Word) (w : Word), ∃ t u x y : State,
    runOps (vs.map .wrLckr) s = .next t ∧ t.port = s.port ∧
    exec (.wrCrl w) s = .next u ∧ exec (.wrCrl w) t = .next x ∧ x.port = u.port ∧
    exec (.wrCrh w) s = .next y ∧ ∃ z : State, exec (.wrCrh w) t = .next z ∧ z.port = y.port

/-- 43_lock_and_unmapped.md, section 2: an access to an offset that is not one of the seven is decoded as unmapped and answers AddressingError with that offset, no data, nothing changed. That a misaligned
offset is unmapped is the spec's decision D4, that a failed read has no data D7 (log entry 18); that a failure is an answer of a next state is log entry 5. -/
def Obligations.UnmappedAccessIsAddressingError : Prop :=
  ∀ (s : State) (off v : Word), off.toNat ∉ [0x00, 0x04, 0x08, 0x0C, 0x10, 0x14, 0x18] →
    decode (.memRead off .word) = .ok (.rdUnmapped off) ∧
    decode (.memWrite off .word v) = .ok (.wrUnmapped off v) ∧
    exec (.rdUnmapped off) s = .next { s with transcript := s.transcript ++ [⟨.rdUnmapped off, ⟨.addressingError off, [], []⟩⟩] } ∧
    exec (.wrUnmapped off v) s = .next { s with transcript := s.transcript ++ [⟨.wrUnmapped off v, ⟨.addressingError off, [], []⟩⟩] }

/-! ### The arbiter and injection -/

/-- 44_pin_arbiter.md, section 1, and the two wrong-direction policies: on an Input pin the internal driver is dropped in silence and the external source accepted; on an Output pin the driver is accepted and the
external source rejected with a warning. Ownership changes only by a configuration write or a reset; a configuration write or a port reset changes no level. That a port reset changes no level is the spec's
decision D12 (log entry 10); that an accepted request writes and emits also for an unchanged level is D9 (log entry 13). -/
def Obligations.EachPinHasOneOwner : Prop :=
  (∀ (w : Work) (p : Pin) (l : Level),
    (w.port.modeOf p = 0b00#2 →
      applyOutputLevel p l w = w ∧
      injectLevel (p.val : Int) l w = { w with port := w.port.setLevel p l, events := w.events ++ [⟨p, l⟩] }) ∧
    (w.port.modeOf p ≠ 0b00#2 →
      applyOutputLevel p l w = { w with port := w.port.setLevel p l, events := w.events ++ [⟨p, l⟩] } ∧
      injectLevel (p.val : Int) l w = { w with diagnostics := w.diagnostics ++ [.wrongDirection p] })) ∧
  (∀ (i : Instr) (s t : State) (p : Pin), exec i s = .next t →
    (s.port.modeOf p = 0b00#2 ∧ t.port.modeOf p ≠ 0b00#2 ∨ s.port.modeOf p ≠ 0b00#2 ∧ t.port.modeOf p = 0b00#2) →
    (∃ v, i = .wrCrl v) ∨ (∃ v, i = .wrCrh v) ∨ i = .reset ∨ i = .por) ∧
  (∀ (i : Instr) (s t : State), exec i s = .next t →
    ((∃ v, i = .wrCrl v) ∨ (∃ v, i = .wrCrh v) ∨ i = .reset) → t.port.sig = s.port.sig)

/-- 44_pin_arbiter.md, R112: an injection on an Input pin sets that pin's level and no other, and emits one event, whatever the configuration and the old level (the spec's decision D9, log entry 13). -/
def Obligations.InjectionOnInputIsAccepted : Prop :=
  ∀ (s : State) (p : Pin) (l : Level), s.port.modeOf p = 0b00#2 → ∃ sig : PinMask,
    exec (.inject (p.val : Int) l) s = .next { s with
      port := { s.port with sig := sig }
      transcript := s.transcript ++ [⟨.inject (p.val : Int) l, ⟨.ok, [⟨p, l⟩], []⟩⟩] } ∧
    ∀ r : Pin, sig.getLsbD r.val = if r = p then l else s.port.level r

/-- 44_pin_arbiter.md R113: an injection on an Output pin changes nothing, emits no event and exactly one warning, also when the level is the one the pin has. -/
def Obligations.InjectionOnOutputIsRejected : Prop :=
  ∀ (s : State) (p : Pin) (l : Level), s.port.modeOf p ≠ 0b00#2 →
    exec (.inject (p.val : Int) l) s = .next { s with
      transcript := s.transcript ++ [⟨.inject (p.val : Int) l, ⟨.ok, [], [.wrongDirection p]⟩⟩] }

/-- 44_pin_arbiter.md, R114: an index outside 0..15 is ignored, without a diagnostic (the spec's decision D14, log entry 15). -/
def Obligations.InjectionOutOfRangeIsIgnored : Prop :=
  ∀ (s : State) (idx : Int) (l : Level), (idx < 0 ∨ 16 ≤ idx) →
    exec (.inject idx l) s = .next { s with transcript := s.transcript ++ [⟨.inject idx l, ⟨.ok, [], []⟩⟩] }

/-! ### The resets -/

/-- 70_reset_and_hazards.md, R140: the tables at Input and Floating, all sixteen levels kept (the spec's decision D12, log entry 10), no event (D16, log entry 16). -/
def Obligations.PortResetKeepsLevels : Prop :=
  ∀ s : State, ∃ q : Port,
    exec .reset s = .next { s with port := q, transcript := s.transcript ++ [⟨.reset, ⟨.ok, [], []⟩⟩] } ∧
    (∀ p : Pin, q.modeOf p = 0b00#2 ∧ q.cnfOf p = 0b01#2) ∧ q.sig = s.port.sig

/-- 70_reset_and_hazards.md, R141: all 80 bits at their defaults; the levels low by the spec's decision D11 (log entry 9), no event (D16, log entry 16). -/
def Obligations.PowerOnClearsEverything : Prop :=
  ∀ s : State, ∃ q : Port,
    exec .por s = .next { s with port := q, transcript := s.transcript ++ [⟨.por, ⟨.ok, [], []⟩⟩] } ∧
    (∀ p : Pin, q.modeOf p = 0b00#2 ∧ q.cnfOf p = 0b01#2 ∧ q.level p = false) ∧ q = State.reset.port

/-! ### Frames -/

/-- 10_state.md, R10 and R11: no operation other than WR_CRL, WR_CRH, RESET and POR changes a mode or a configuration; no operation changes the policy, the stimuli still to be served or a response already given. -/
def Obligations.TablesChangeOnlyByConfigWritesAndResets : Prop :=
  ∀ (i : Instr) (s t : State), exec i s = .next t →
    (writesTables i = false → ∀ p : Pin, t.port.modeOf p = s.port.modeOf p ∧ t.port.cnfOf p = s.port.cnfOf p) ∧
    t.config = s.config ∧ t.pending = s.pending ∧ ∃ r : Response, t.transcript = s.transcript ++ [⟨i, r⟩]

/-- 10_state.md, R12: the levels change only by a drive of an Output pin, an accepted injection or power-on; in particular not by a port reset (the spec's decision D12, log entry 10) nor by a configuration write. -/
def Obligations.LevelsChangeOnlyByTheirOwner : Prop :=
  ∀ (i : Instr) (s t : State) (p : Pin), exec i s = .next t → t.port.level p ≠ s.port.level p →
    i = .por ∨
    (isDriveWrite i = true ∧ s.port.modeOf p ≠ 0b00#2) ∨
    (s.port.modeOf p = 0b00#2 ∧ i = .inject (p.val : Int) (t.port.level p))

/-- 20_memory.md, R38: a bus read changes nothing and emits nothing, and repeated at once it gives the same answer. -/
def Obligations.ReadsHaveNoSideEffects : Prop :=
  ∀ (i : Instr) (s : State), isBusRead i = true → ∃ r : Result,
    exec i s = .next { s with transcript := s.transcript ++ [⟨i, ⟨r, [], []⟩⟩] } ∧
    runOps [i, i] s = .next { s with transcript := s.transcript ++ [⟨i, ⟨r, [], []⟩⟩, ⟨i, ⟨r, [], []⟩⟩] }

/-- 20_memory.md, R38, and 70_reset_and_hazards.md, R157: a bus write done twice in a row leaves the block as once, and answers the same again, events included. -/
def Obligations.RepeatedWritesRepeatTheirEvents : Prop :=
  ∀ (i : Instr) (s : State), isBusWrite i = true → ∃ (q : Port) (r : Response),
    exec i s = .next { s with port := q, transcript := s.transcript ++ [⟨i, r⟩] } ∧
    runOps [i, i] s = .next { s with port := q, transcript := s.transcript ++ [⟨i, r⟩, ⟨i, r⟩] }

/-! ### Reserved bits and conditions -/

/-- 30_encoding.md R61: reserved bits read as zero and are ignored on a write, which is otherwise performed on the defined bits, without an error or a diagnostic; the lock register, all of whose bits are reserved, under
RAZ_WI (the policy under which it is readable at all, log entry 4). -/
def Obligations.ReservedBitsReadZeroAndAreIgnored : Prop :=
  ∀ (reg : RegName) (s : State), (reg = .lckr → s.config.lckrPolicy = .razWi) →
    (∃ v : Word,
      exec (decodeRead reg.offset) s = .next { s with
        transcript := s.transcript ++ [⟨decodeRead reg.offset, ⟨.data v, [], []⟩⟩] } ∧
      v &&& ~~~reg.definedBits = 0#32) ∧
    (∀ v : Word, ∃ (q : Port) (es : List ConnSet),
      exec (decodeWrite reg.offset v) s = .next { s with
        port := q, transcript := s.transcript ++ [⟨decodeWrite reg.offset v, ⟨.ok, es, []⟩⟩] } ∧
      exec (decodeWrite reg.offset (v &&& reg.definedBits)) s = .next { s with
        port := q, transcript := s.transcript ++ [⟨decodeWrite reg.offset (v &&& reg.definedBits), ⟨.ok, es, []⟩⟩] })

/-- 60_exceptions.md, sections 1 and 3: every operation of the block completes from every state; which operations answer AddressingError, with which offset; one that does leaves the block unchanged and answers
with no event, no diagnostic and no data. That the failure is an answer of a next state, after which the machine goes on, is log entry 5 (DEDUCED from R120, R126, R127). A term with a mapped offset, which is no
operation of the block, is left to log entry 22. -/
def Obligations.AddressingErrorIsExact : Prop :=
  ∀ (i : Instr) (s : State), i.wellFormed = true → ∃ (q : Port) (r : Response),
    exec i s = .next { s with port := q, transcript := s.transcript ++ [⟨i, r⟩] } ∧
    (∀ off : Word, r.result = .addressingError off ↔
      i = .rdUnmapped off ∨ (∃ v, i = .wrUnmapped off v) ∨
      (s.config.lckrPolicy = .reject ∧ off = 0x18#32 ∧ (i = .rdLckr ∨ ∃ v, i = .wrLckr v))) ∧
    (r.result.err = true → q = s.port ∧ r.events = [] ∧ r.diagnostics = [] ∧ r.result.rdata = none)

/-- 60_exceptions.md, R121: the warning is raised by a rejected injection and by nothing else, carries the pin, and changes nothing (that it is an element of the response is the spec's decision D22, log entry 24). -/
def Obligations.WarningIsExactlyARejectedInjection : Prop :=
  ∀ (i : Instr) (s t : State) (r : Response), exec i s = .next t → t.transcript = s.transcript ++ [⟨i, r⟩] →
    (∀ p : Pin, .wrongDirection p ∈ r.diagnostics ↔ s.port.modeOf p ≠ 0b00#2 ∧ ∃ l, i = .inject (p.val : Int) l) ∧
    (r.diagnostics ≠ [] → r.diagnostics.length = 1 ∧ r.result = .ok ∧ r.events = [] ∧ t.port = s.port)

/-- 60_exceptions.md, R125 and R126: an operation reports at most one condition, and one that reports a condition has changed nothing and emitted nothing. -/
def Obligations.AtMostOneConditionAndNoTrace : Prop :=
  ∀ (i : Instr) (s t : State) (r : Response), exec i s = .next t → t.transcript = s.transcript ++ [⟨i, r⟩] →
    r.conditions ≤ 1 ∧ (r.conditions = 1 → t.port = s.port ∧ t.config = s.config ∧ r.events = [])

/-- 95_test_vectors.md, section 4, property 5 (41_data_registers.md R80): with every pin an Input pin no bus write changes a level, emits an event or warns. -/
def Obligations.AllInputPortDropsEveryDrive : Prop :=
  ∀ (i : Instr) (s : State), (∀ p : Pin, s.port.modeOf p = 0b00#2) → isBusWrite i = true →
    ∃ (q : Port) (r : Result),
      exec i s = .next { s with port := q, transcript := s.transcript ++ [⟨i, ⟨r, [], []⟩⟩] } ∧ q.sig = s.port.sig

/-- 95_test_vectors.md, section 4, property 6 (44_pin_arbiter.md R113): with every pin an Output pin no injection changes anything, and each injection warns exactly if its index is in 0..15. -/
def Obligations.AllOutputPortRejectsEveryInjection : Prop :=
  ∀ (s : State) (idx : Int) (l : Level), (∀ p : Pin, s.port.modeOf p ≠ 0b00#2) → ∃ ds : List Diagnostic,
    exec (.inject idx l) s = .next { s with transcript := s.transcript ++ [⟨.inject idx l, ⟨.ok, [], ds⟩⟩] } ∧
    ds.length = (if 0 ≤ idx ∧ idx ≤ 15 then 1 else 0)

/-! ### What an operation cannot depend on -/

/-- 41_data_registers.md, R86: what a drive write does to pin p, its level after the write and the events it sends for p in their order, depends on that pin's mode, that pin's level and the two data bits of that
pin, and on nothing else; and it writes no entry of the tables. -/
def Obligations.DriveLanesAreIndependent : Prop :=
  ∀ (s s' : State) (v v' : Word) (p : Pin) (i i' : Instr),
    s.port.modeOf p = s'.port.modeOf p → s.port.level p = s'.port.level p →
    v.getLsbD p.val = v'.getLsbD p.val → v.getLsbD (16 + p.val) = v'.getLsbD (16 + p.val) →
    (i = .wrOdr v ∧ i' = .wrOdr v' ∨ i = .wrBsrr v ∧ i' = .wrBsrr v' ∨ i = .wrBrr v ∧ i' = .wrBrr v') →
    ∃ (sig sig' : PinMask) (es es' : List ConnSet),
      exec i s = .next { s with
        port := { s.port with sig := sig }, transcript := s.transcript ++ [⟨i, ⟨.ok, es, []⟩⟩] } ∧
      exec i' s' = .next { s' with
        port := { s'.port with sig := sig' }, transcript := s'.transcript ++ [⟨i', ⟨.ok, es', []⟩⟩] } ∧
      sig.getLsbD p.val = sig'.getLsbD p.val ∧
      es.filter (fun e => e.pin == p) = es'.filter (fun e => e.pin == p)

/-- 10_state.md, R10 and R11, and 44_pin_arbiter.md, R110: two blocks that agree on which pins are Input pins, on the levels and on the policy answer every operation but the two configuration reads alike and keep equal levels:
no configuration and no output speed selects any behaviour. -/
def Obligations.OnlyDirectionsAndLevelsMatter : Prop :=
  ∀ (i : Instr) (s s' t t' : State) (r r' : Response),
    (∀ p : Pin, s.port.modeOf p = 0b00#2 ↔ s'.port.modeOf p = 0b00#2) →
    s.port.sig = s'.port.sig → s.config = s'.config → readsTables i = false →
    exec i s = .next t → t.transcript = s.transcript ++ [⟨i, r⟩] →
    exec i s' = .next t' → t'.transcript = s'.transcript ++ [⟨i, r'⟩] →
    r = r' ∧ t.port.sig = t'.port.sig ∧ ∀ p : Pin, (t.port.modeOf p = 0b00#2 ↔ t'.port.modeOf p = 0b00#2)

/-- 10_state.md, R18 and R19: the block keeps no record of what it answered or of what waits: two machines with the same 80 bits and policy answer alike and end with the same 80 bits, whatever went before. -/
def Obligations.RunHistoryNeverFeedsBack : Prop :=
  ∀ (i : Instr) (s s' : State), s.port = s'.port → s.config = s'.config → ∃ (q : Port) (r : Response),
    exec i s = .next { s with port := q, transcript := s.transcript ++ [⟨i, r⟩] } ∧
    exec i s' = .next { s' with port := q, transcript := s'.transcript ++ [⟨i, r⟩] }

/-! ### Hazards and shorthands -/

/-- 70_reset_and_hazards.md, R150 and R151: there is no output latch. Levels written for a pin while it is an Input pin are lost: after any drive writes and then a configuration write, the pin still has the level it had. -/
def Obligations.NoOutputLatch : Prop :=
  ∀ (s : State) (p : Pin) (ds : List Instr) (v : Word), s.port.modeOf p = 0b00#2 → (∀ d ∈ ds, isDriveWrite d = true) →
    (∃ t : State, runOps (ds ++ [.wrCrl v]) s = .next t ∧ t.port.level p = s.port.level p) ∧
    (∃ t : State, runOps (ds ++ [.wrCrh v]) s = .next t ∧ t.port.level p = s.port.level p)

/-- 70_reset_and_hazards.md, section 2, 30_encoding.md, section 4, 41_data_registers.md, section 1, and 42_bit_set_reset.md: `CFGPIN p` to an output mode, then `SETPIN p` or `CLRPIN p`, with nothing between: pin p
ends in that mode and configuration at that level, every other pin's entries and level are untouched. That the last operation emits its event also when the pin has the level already is the spec's decision D9 (log
entry 13). The shorthands are the spec's own (D18). `CFGPIN` to Input is two of the operations that WriteConfigLowStoresEightPins and WriteConfigHighStoresEightPins speak of. -/
def Obligations.ConfigureThenDriveSetsThePin : Prop :=
  ∀ (s : State) (p : Pin) (m c : BitVec 2) (l : Level), m ≠ 0b00#2 → ∃ (v : Word) (rd wr dr : Instr) (t : State),
    decode (cfgPinReadLine p).stimulus = .ok rd ∧
    exec rd s = .next { s with transcript := s.transcript ++ [⟨rd, ⟨.data v, [], []⟩⟩] } ∧
    decode (cfgPinWriteLine p m c v).stimulus = .ok wr ∧
    decode (if l then setPinLine p else clrPinLine p).stimulus = .ok dr ∧
    runOps [rd, wr, dr] s = .next t ∧
    t.transcript = s.transcript ++ [⟨rd, ⟨.data v, [], []⟩⟩, ⟨wr, ⟨.ok, [], []⟩⟩, ⟨dr, ⟨.ok, [⟨p, l⟩], []⟩⟩] ∧
    t.port.modeOf p = m ∧ t.port.cnfOf p = c ∧ t.port.level p = l ∧
    ∀ r : Pin, r ≠ p → t.port.modeOf r = s.port.modeOf r ∧ t.port.cnfOf r = s.port.cnfOf r ∧ t.port.level r = s.port.level r

/-- 44_pin_arbiter.md, R116, and 20_memory.md, R33: the pin-side outputs and the connection layer's reads are the levels and the directions (the spec's decision D19). -/
def Obligations.PinOutputsShowLevelsAndDirections : Prop :=
  ∀ (s : State) (p : Pin),
    (pinLevel s).getLsbD p.val = s.port.level p ∧
    ((pinOutputEnable s).getLsbD p.val = true ↔ s.port.modeOf p ≠ 0b00#2) ∧
    readCurrentLevel s p = s.port.level p ∧ readAllLevels s = s.port.sig

/-- 60_exceptions.md, R133, and 10_state.md, R22: a step of one port of a system is that port's own step and leaves every other port as it was (log entry 20). -/
def Obligations.PortsShareNoState : Prop :=
  ∀ (ports ports' : List State) (k : Fin ports.length), stepPort ports k = .next ports' →
    ports'.length = ports.length ∧
    (∃ t : State, step (ports.get k) = .next t ∧ ports'[k.val]? = some t) ∧
    ∀ j : Nat, j ≠ k.val → ports'[j]? = ports[j]?

/-! ### Invariants -/

/-- At power-on, with nothing answered yet, the three invariants hold. -/
def Obligations.InvariantsHoldAtReset : Prop :=
  EventsAccountForLevels State.reset ∧ ConfigReadsAsLastWritten State.reset ∧ RunIsLawful State.reset

/-- 44_pin_arbiter.md, R115: replaying all events since the last POR on a vector of zeros gives `SIG`, at every operation boundary. -/
def Obligations.StepKeepsEventsAccountingForLevels : Prop :=
  ∀ s t : State, EventsAccountForLevels s → step s = .next t → EventsAccountForLevels t

/-- 10_state.md, R21 (d): reading Configuration Low and High returns exactly the last values written since the last reset, or 0x44444444 if none was written. -/
def Obligations.StepKeepsConfigAsLastWritten : Prop :=
  ∀ s t : State, ConfigReadsAsLastWritten s → step s = .next t → ConfigReadsAsLastWritten t

/-- Every line of a run is an operation of the block with a response that the rules allow it from some 80 bits under the machine's policy (`ResponseAllowed`: 40_config_registers.md to 44_pin_arbiter.md, 60_exceptions.md
and 70_reset_and_hazards.md, operation by operation), and every step keeps that. The form of the responses rests on the spec's decisions D5 (log entry 4: the policy), D6 (14: writes to Input Data), D7 (18: no data of a
failed read), D8 (8: ascending events), D9 (13: events for unchanged levels), D14 (15: silence out of range), D16 (16: no events at resets), D22 (24: the warning in the response), on log entry 5 (DEDUCED: a failure
is an answer) and on log entry 24 (DEDUCED: RESET and POR are recorded with an empty ok). -/
def Obligations.StepKeepsTheRunLawful : Prop :=
  ∀ s t : State, RunIsLawful s → step s = .next t → RunIsLawful t
end

