-- ==== Sys2Proof/Laws/State.lean ====
section
/-! SUPPORT. The fields of the state's records after each named update, one lemma per field per update. -/

namespace Sys2Proof.Machine

@[simp] theorem Port.setLevel_mode (q : Port) (p : Pin) (l : Level) : (q.setLevel p l).mode = q.mode := rfl
@[simp] theorem Port.setLevel_cnf (q : Port) (p : Pin) (l : Level) : (q.setLevel p l).cnf = q.cnf := rfl
@[simp] theorem Port.setLevel_sig (q : Port) (p : Pin) (l : Level) : (q.setLevel p l).sig = setPinBit q.sig p l := rfl
@[simp] theorem Port.setLevel_modeOf (q : Port) (p : Pin) (l : Level) (r : Pin) : (q.setLevel p l).modeOf r = q.modeOf r := rfl
@[simp] theorem Port.setLevel_cnfOf (q : Port) (p : Pin) (l : Level) (r : Pin) : (q.setLevel p l).cnfOf r = q.cnfOf r := rfl
@[simp] theorem Port.setLevel_isInput (q : Port) (p : Pin) (l : Level) (r : Pin) : (q.setLevel p l).isInput r = q.isInput r := rfl

@[simp] theorem Port.setConfig_sig (q : Port) (p : Pin) (m c : BitVec 2) : (q.setConfig p m c).sig = q.sig := rfl
@[simp] theorem Port.setConfig_level (q : Port) (p : Pin) (m c : BitVec 2) (r : Pin) : (q.setConfig p m c).level r = q.level r := rfl

@[simp] theorem Work.start_port (q : Port) : (Work.start q).port = q := rfl
@[simp] theorem Work.start_events (q : Port) : (Work.start q).events = [] := rfl
@[simp] theorem Work.start_diagnostics (q : Port) : (Work.start q).diagnostics = [] := rfl

@[simp] theorem Work.emitConnSet_port (w : Work) (p : Pin) (l : Level) : (w.emitConnSet p l).port = w.port := rfl
@[simp] theorem Work.emitConnSet_events (w : Work) (p : Pin) (l : Level) : (w.emitConnSet p l).events = w.events ++ [⟨p, l⟩] := rfl
@[simp] theorem Work.emitConnSet_diagnostics (w : Work) (p : Pin) (l : Level) : (w.emitConnSet p l).diagnostics = w.diagnostics := rfl

@[simp] theorem Work.emitWarn_port (w : Work) (p : Pin) : (w.emitWarn p).port = w.port := rfl
@[simp] theorem Work.emitWarn_events (w : Work) (p : Pin) : (w.emitWarn p).events = w.events := rfl
@[simp] theorem Work.emitWarn_diagnostics (w : Work) (p : Pin) : (w.emitWarn p).diagnostics = w.diagnostics ++ [.wrongDirection p] := rfl

@[simp] theorem Work.setLevel_port (w : Work) (p : Pin) (l : Level) : (w.setLevel p l).port = w.port.setLevel p l := rfl
@[simp] theorem Work.setLevel_events (w : Work) (p : Pin) (l : Level) : (w.setLevel p l).events = w.events := rfl
@[simp] theorem Work.setLevel_diagnostics (w : Work) (p : Pin) (l : Level) : (w.setLevel p l).diagnostics = w.diagnostics := rfl

@[simp] theorem State.answer_port (s : State) (i : Instr) (r : Result) (w : Work) : (s.answer i r w).port = w.port := rfl
@[simp] theorem State.answer_config (s : State) (i : Instr) (r : Result) (w : Work) : (s.answer i r w).config = s.config := rfl
@[simp] theorem State.answer_pending (s : State) (i : Instr) (r : Result) (w : Work) : (s.answer i r w).pending = s.pending := rfl
@[simp] theorem State.answer_transcript (s : State) (i : Instr) (r : Result) (w : Work) :
    (s.answer i r w).transcript = s.transcript ++ [⟨i, ⟨r, w.events, w.diagnostics⟩⟩] := rfl

end Sys2Proof.Machine
end

