-- ==== Sys2Proof/Laws/Bits.lean ====
section
/-! SUPPORT. Bits and nibbles: what a replaced bit leaves alone, and that the nibble of a pin loses nothing (30_encoding.md R53). -/

namespace Sys2Proof.Machine

theorem pin_mem_allPins (p : Pin) : p ∈ allPins := by revert p; decide

theorem allPins_nodup : allPins.Nodup := by decide

theorem nibbleIndex_mem (k : Fin 8) : k ∈ nibbleIndices := by revert k; decide

theorem nibbleIndices_nodup : nibbleIndices.Nodup := by decide

/-- Reading bit r after bit p was replaced. -/
theorem getLsbD_setPinBit (v : PinMask) (p r : Pin) (l : Level) :
    (setPinBit v p l).getLsbD r.val = if r = p then l else v.getLsbD r.val := by
  have hr := r.isLt
  unfold setPinBit
  cases l <;> simp [Fin.ext_iff, eq_comm, hr] <;> grind

/-- Two pin vectors with the same sixteen bits are equal. -/
theorem pinMask_ext {v w : PinMask} (h : ∀ p : Pin, v.getLsbD p.val = w.getLsbD p.val) : v = w := by
  apply BitVec.eq_of_getLsbD_eq
  intro i hi
  exact h ⟨i, hi⟩

@[simp] theorem setPinBit_same (v : PinMask) (p : Pin) : setPinBit v p (v.getLsbD p.val) = v := by
  apply pinMask_ext; intro r; rw [getLsbD_setPinBit]; split <;> simp_all

@[simp] theorem Port.setLevel_level (q : Port) (p r : Pin) (l : Level) :
    (q.setLevel p l).level r = if r = p then l else q.level r := getLsbD_setPinBit _ _ _ _

@[simp] theorem unpackMode_pack (m c : BitVec 2) : unpackMode (pack m c) = m := by
  revert m c; decide

@[simp] theorem unpackCnf_pack (m c : BitVec 2) : unpackCnf (pack m c) = c := by
  revert m c; decide

@[simp] theorem pack_unpack (n : BitVec 4) : pack (unpackMode n) (unpackCnf n) = n := by
  revert n; decide

/-- Bit 4k + j of a word is bit j of its nibble k. -/
theorem getLsbD_nib (v : Word) (k : Fin 8) (j : Nat) (h : j < 4) :
    (nib v k).getLsbD j = v.getLsbD (4 * k.val + j) := by
  simp [nib, h]

/-- A word is its eight nibbles. -/
theorem word_ext_nib {v w : Word} (h : ∀ k : Fin 8, nib v k = nib w k) : v = w := by
  apply BitVec.eq_of_getLsbD_eq
  intro i hi
  have hk := congrArg (fun n => n.getLsbD (i % 4)) (h ⟨i / 4, by omega⟩)
  simp only [getLsbD_nib _ _ _ (Nat.mod_lt i (by decide : 0 < 4))] at hk
  rwa [Nat.div_add_mod] at hk

theorem lowPin_injective : Function.Injective lowPin := by
  intro a b h; simpa [lowPin, Fin.ext_iff] using h

theorem highPin_injective : Function.Injective highPin := by
  intro a b h; simpa [highPin, Fin.ext_iff] using h

theorem lowPin_ne_highPin (j k : Fin 8) : lowPin j ≠ highPin k := by
  intro h
  have hv : j.val = 8 + k.val := congrArg Fin.val h
  omega

/-- Every pin is a pin of one of the two configuration registers. -/
theorem pin_cases (p : Pin) : (∃ k, p = lowPin k) ∨ (∃ k, p = highPin k) := by
  have hp := p.isLt
  by_cases h : p.val < 8
  · exact .inl ⟨⟨p.val, h⟩, rfl⟩
  · exact .inr ⟨⟨p.val - 8, by omega⟩, Fin.ext (by simp [highPin]; omega)⟩

theorem Port.setConfig_modeOf (q : Port) (p r : Pin) (m c : BitVec 2) :
    (q.setConfig p m c).modeOf r = if r = p then m else q.modeOf r := by
  simp only [Port.setConfig, Port.modeOf, Vector.get_eq_getElem, Vector.getElem_set, Fin.ext_iff]
  simp [eq_comm]

theorem Port.setConfig_cnfOf (q : Port) (p r : Pin) (m c : BitVec 2) :
    (q.setConfig p m c).cnfOf r = if r = p then c else q.cnfOf r := by
  simp only [Port.setConfig, Port.cnfOf, Vector.get_eq_getElem, Vector.getElem_set, Fin.ext_iff]
  simp [eq_comm]

/-- Two ports with the same tables, entry by entry, and the same vector are equal. -/
theorem Port.ext_of {q r : Port} (hm : ∀ p, q.modeOf p = r.modeOf p) (hc : ∀ p, q.cnfOf p = r.cnfOf p)
    (hs : q.sig = r.sig) : q = r := by
  obtain ⟨qm, qc, qs⟩ := q
  obtain ⟨rm, rc, rs⟩ := r
  have h1 : qm = rm := Vector.ext fun i hi => hm ⟨i, hi⟩
  have h2 : qc = rc := Vector.ext fun i hi => hc ⟨i, hi⟩
  simp_all

end Sys2Proof.Machine
end

