-- ==== Sys2Proof/Laws/Config.lean ====
section
/-! SUPPORT. The configuration registers: what reading one returns, what writing one changes (40_config_registers.md), what the
table half of a reset leaves (70_reset_and_hazards.md R140). -/

namespace Sys2Proof.Machine

/-- A fold that ors in one nibble per index leaves each nibble where its index says. -/
theorem nib_orFold (f : Fin 8 → BitVec 4) (k : Fin 8) (ks : List (Fin 8)) (v : Word) :
    nib (ks.foldl (fun v k => v ||| ((f k).setWidth 32 <<< (4 * k.val))) v) k =
      if k ∈ ks then nib v k ||| f k else nib v k := by
  induction ks generalizing v with
  | nil => simp
  | cons j js ih =>
    rw [List.foldl_cons, ih]
    have step : nib (v ||| ((f j).setWidth 32 <<< (4 * j.val))) k = if k = j then nib v k ||| f k else nib v k := by
      apply BitVec.eq_of_getLsbD_eq
      intro i hi
      rw [getLsbD_nib _ _ _ hi]
      have hk := k.isLt
      have hj := j.isLt
      by_cases e : k = j
      · subst e
        simp [getLsbD_nib _ _ _ hi, show 4 * k.val + i < 32 by omega]
      · have hne : k.val ≠ j.val := fun h => e (Fin.ext h)
        simp only [e, if_false, getLsbD_nib _ _ _ hi, BitVec.getLsbD_or, BitVec.getLsbD_shiftLeft, BitVec.getLsbD_setWidth]
        by_cases lt : 4 * k.val + i < 4 * j.val
        · simp [lt]
        · have : (f j).getLsbD (4 * k.val + i - 4 * j.val) = false := BitVec.getLsbD_of_ge _ _ (by omega)
          simp [this]
    rw [step]
    by_cases e : k = j
    · subst e
      simp only [if_true, List.mem_cons, true_or]
      split
      · simp [BitVec.or_assoc]
      · rfl
    · simp [e]

/-- RD_CRL and RD_CRH return, nibble by nibble, what the tables hold (R70, R72). -/
theorem nib_readConfig (pinAt : Fin 8 → Pin) (q : Port) (k : Fin 8) :
    nib (readConfig pinAt q) k = pack (q.modeOf (pinAt k)) (q.cnfOf (pinAt k)) := by
  unfold readConfig
  rw [nib_orFold (fun k => pack (q.modeOf (pinAt k)) (q.cnfOf (pinAt k)))]
  simp [nibbleIndex_mem, nib]

/-- What a configuration write leaves alone beside the tables: the levels (R74). -/
@[simp] theorem writeConfig_sig (pinAt : Fin 8 → Pin) (v : Word) (q : Port) : (writeConfig pinAt v q).sig = q.sig := by
  simp only [writeConfig, nibbleIndices, List.foldl_cons, List.foldl_nil, Port.setConfig_sig]

theorem writeFold_other (pinAt : Fin 8 → Pin) (v : Word) (r : Pin) (ks : List (Fin 8)) (q : Port)
    (h : ∀ k ∈ ks, r ≠ pinAt k) :
    (ks.foldl (fun q k => q.setConfig (pinAt k) (unpackMode (nib v k)) (unpackCnf (nib v k))) q).modeOf r = q.modeOf r ∧
    (ks.foldl (fun q k => q.setConfig (pinAt k) (unpackMode (nib v k)) (unpackCnf (nib v k))) q).cnfOf r = q.cnfOf r := by
  induction ks generalizing q with
  | nil => exact ⟨rfl, rfl⟩
  | cons j js ih =>
    have hj : r ≠ pinAt j := h j (by simp)
    have := ih (q.setConfig (pinAt j) (unpackMode (nib v j)) (unpackCnf (nib v j))) fun k hk => h k (by simp [hk])
    simpa [Port.setConfig_modeOf, Port.setConfig_cnfOf, hj] using this

/-- A pin of the other register keeps its entries (R71, R73 "State not written"). -/
theorem writeConfig_other (pinAt : Fin 8 → Pin) (v : Word) (q : Port) (r : Pin) (h : ∀ k, r ≠ pinAt k) :
    (writeConfig pinAt v q).modeOf r = q.modeOf r ∧ (writeConfig pinAt v q).cnfOf r = q.cnfOf r :=
  writeFold_other pinAt v r nibbleIndices q fun k _ => h k

theorem writeFold_at (pinAt : Fin 8 → Pin) (inj : Function.Injective pinAt) (v : Word) (k : Fin 8) (ks : List (Fin 8))
    (nd : ks.Nodup) (hk : k ∈ ks) (q : Port) :
    (ks.foldl (fun q k => q.setConfig (pinAt k) (unpackMode (nib v k)) (unpackCnf (nib v k))) q).modeOf (pinAt k) =
      unpackMode (nib v k) ∧
    (ks.foldl (fun q k => q.setConfig (pinAt k) (unpackMode (nib v k)) (unpackCnf (nib v k))) q).cnfOf (pinAt k) =
      unpackCnf (nib v k) := by
  induction ks generalizing q with
  | nil => simp at hk
  | cons j js ih =>
    rw [List.nodup_cons] at nd
    by_cases e : k = j
    · subst e
      have other := writeFold_other pinAt v (pinAt k) js
        (q.setConfig (pinAt k) (unpackMode (nib v k)) (unpackCnf (nib v k)))
        fun i hi he => nd.1 (inj he ▸ hi)
      simpa [Port.setConfig_modeOf, Port.setConfig_cnfOf] using other
    · exact ih nd.2 (by simpa [e] using hk) _

/-- A configuration write stores, in the entries of pin k of its register, the fields of nibble k (R71, R73). -/
theorem writeConfig_at (pinAt : Fin 8 → Pin) (inj : Function.Injective pinAt) (v : Word) (q : Port) (k : Fin 8) :
    (writeConfig pinAt v q).modeOf (pinAt k) = unpackMode (nib v k) ∧
    (writeConfig pinAt v q).cnfOf (pinAt k) = unpackCnf (nib v k) :=
  writeFold_at pinAt inj v k nibbleIndices nibbleIndices_nodup (nibbleIndex_mem k) q

/-- Reading a register depends on its own pins' entries only. -/
theorem readConfig_congr (pinAt : Fin 8 → Pin) {q r : Port}
    (h : ∀ k, q.modeOf (pinAt k) = r.modeOf (pinAt k) ∧ q.cnfOf (pinAt k) = r.cnfOf (pinAt k)) :
    readConfig pinAt q = readConfig pinAt r := by
  apply word_ext_nib
  intro k
  rw [nib_readConfig, nib_readConfig, (h k).1, (h k).2]

/-- A configuration register is determined by what its reads return. -/
theorem tables_eq_of_readConfig {pinAt : Fin 8 → Pin} {q r : Port} (h : readConfig pinAt q = readConfig pinAt r) (k : Fin 8) :
    q.modeOf (pinAt k) = r.modeOf (pinAt k) ∧ q.cnfOf (pinAt k) = r.cnfOf (pinAt k) := by
  have hn := congrArg (fun v => nib v k) h
  simp only [nib_readConfig] at hn
  constructor
  · simpa using congrArg unpackMode hn
  · simpa using congrArg unpackCnf hn

theorem resetFold (r : Pin) (ps : List Pin) (q : Port) :
    (ps.foldl (fun q p => q.setConfig p modeInput cnfFloating) q).modeOf r = (if r ∈ ps then modeInput else q.modeOf r) ∧
    (ps.foldl (fun q p => q.setConfig p modeInput cnfFloating) q).cnfOf r = (if r ∈ ps then cnfFloating else q.cnfOf r) ∧
    (ps.foldl (fun q p => q.setConfig p modeInput cnfFloating) q).sig = q.sig := by
  induction ps generalizing q with
  | nil => simp
  | cons j js ih =>
    obtain ⟨h1, h2, h3⟩ := ih (q.setConfig j modeInput cnfFloating)
    refine ⟨?_, ?_, by simpa using h3⟩
    · rw [List.foldl_cons, h1, Port.setConfig_modeOf]; by_cases e : r = j <;> simp [e]
    · rw [List.foldl_cons, h2, Port.setConfig_cnfOf]; by_cases e : r = j <;> simp [e]

/-- The tables after a port reset (R140). -/
theorem resetTables_entries (q : Port) (p : Pin) :
    q.resetTables.modeOf p = modeInput ∧ q.resetTables.cnfOf p = cnfFloating := by
  have h := resetFold p allPins q
  simp only [pin_mem_allPins, if_true] at h
  exact ⟨h.1, h.2.1⟩

/-- A port reset keeps the levels (R140). -/
@[simp] theorem resetTables_sig (q : Port) : q.resetTables.sig = q.sig := (resetFold 0 allPins q).2.2

@[simp] theorem powerOn_sig (q : Port) : q.powerOn.sig = 0#16 := rfl

@[simp] theorem powerOn_modeOf (q : Port) (p : Pin) : q.powerOn.modeOf p = q.resetTables.modeOf p := rfl

@[simp] theorem powerOn_cnfOf (q : Port) (p : Pin) : q.powerOn.cnfOf p = q.resetTables.cnfOf p := rfl

/-- A register whose pins are all Input and Floating reads 0x44444444 (R23). -/
theorem readConfig_default (pinAt : Fin 8 → Pin) (q : Port)
    (h : ∀ k, q.modeOf (pinAt k) = modeInput ∧ q.cnfOf (pinAt k) = cnfFloating) :
    readConfig pinAt q = 0x44444444#32 := by
  apply word_ext_nib
  intro k
  rw [nib_readConfig, (h k).1, (h k).2]
  revert k; decide

end Sys2Proof.Machine
end

