-- ==== Sys2Proof/Laws/PerInstr.lean ====
section
/-! SUPPORT. Per operation: the stimulus that selects it decodes back to it (30_encoding.md R58, R60). -/

namespace Sys2Proof.Laws.DecodesBack

/-- A well-formed operation is what its own stimulus decodes to. -/
def Statement (i : Instr) : Prop := i.wellFormed = true → decode (stimulusOf i) = .ok i

theorem unmapped_iff (off : Word) :
    (!mappedOffsets.contains off) = true ↔
      off ≠ 0x00#32 ∧ off ≠ 0x04#32 ∧ off ≠ 0x08#32 ∧ off ≠ 0x0C#32 ∧ off ≠ 0x10#32 ∧ off ≠ 0x14#32 ∧ off ≠ 0x18#32 := by
  simp [mappedOffsets]

theorem rdCrl : Statement .rdCrl := fun _ => rfl
theorem wrCrl (v : Word) : Statement (.wrCrl v) := fun _ => rfl
theorem rdCrh : Statement .rdCrh := fun _ => rfl
theorem wrCrh (v : Word) : Statement (.wrCrh v) := fun _ => rfl
theorem rdIdr : Statement .rdIdr := fun _ => rfl
theorem wrIdr (v : Word) : Statement (.wrIdr v) := fun _ => rfl
theorem rdOdr : Statement .rdOdr := fun _ => rfl
theorem wrOdr (v : Word) : Statement (.wrOdr v) := fun _ => rfl
theorem rdBsrr : Statement .rdBsrr := fun _ => rfl
theorem wrBsrr (v : Word) : Statement (.wrBsrr v) := fun _ => rfl
theorem rdBrr : Statement .rdBrr := fun _ => rfl
theorem wrBrr (v : Word) : Statement (.wrBrr v) := fun _ => rfl
theorem rdLckr : Statement .rdLckr := fun _ => rfl
theorem wrLckr (v : Word) : Statement (.wrLckr v) := fun _ => rfl
theorem rdUnmapped (off : Word) : Statement (.rdUnmapped off) := by
  intro h
  obtain ⟨h0, h1, h2, h3, h4, h5, h6⟩ := (unmapped_iff off).1 h
  simp only [stimulusOf, decode, decodeRead, h0, h1, h2, h3, h4, h5, h6, if_false]
theorem wrUnmapped (off v : Word) : Statement (.wrUnmapped off v) := by
  intro h
  obtain ⟨h0, h1, h2, h3, h4, h5, h6⟩ := (unmapped_iff off).1 h
  simp only [stimulusOf, decode, decodeWrite, h0, h1, h2, h3, h4, h5, h6, if_false]
theorem inject (idx : Int) (level : Level) : Statement (.inject idx level) := fun _ => rfl
theorem reset : Statement .reset := fun _ => rfl
theorem por : Statement .por := fun _ => rfl

end Sys2Proof.Laws.DecodesBack
end

