-- ==== Sys2Proof/Laws/Decode.lean ====
section
/-! SUPPORT. The number of an operation carries its key and its operands (30_encoding.md R50, R65). -/

namespace Sys2Proof

theorem indexOfNat_indexToNat (z : Int) : indexOfNat (indexToNat z) = z := by
  cases z with
  | ofNat n => simp [indexToNat, indexOfNat]
  | negSucc n =>
    have h : (2 * n + 1) / 2 = n := by omega
    simp [indexToNat, indexOfNat, h, Nat.add_mod]

/-- The key and the operand bits come apart again. -/
theorem stimulusOfWord_key (k : BitVec 35) (r : Nat) :
    stimulusOfWord (k.toNat + 2 ^ 40 * r) = stimulusOfKey k r := by
  have hk := k.isLt
  unfold stimulusOfWord
  congr 1
  · apply BitVec.eq_of_toNat_eq
    rw [BitVec.toNat_ofNat]
    omega
  · omega

theorem getLsbD_busKey (h : BitVec 3) (off : Word) (i : Nat) :
    (busKey h off).getLsbD i = if i < 32 then off.getLsbD i else h.getLsbD (i - 32) := by
  rw [busKey, BitVec.getLsbD_append]

theorem busKey_off (h : BitVec 3) (off : Word) : (busKey h off).extractLsb' 0 32 = off := by
  apply BitVec.eq_of_getLsbD_eq
  intro i hi
  rw [BitVec.getLsbD_extractLsb', getLsbD_busKey]
  simp [hi]

theorem busKey_we (h : BitVec 3) (off : Word) : (busKey h off).getLsbD 32 = h.getLsbD 0 := getLsbD_busKey h off 32

theorem busKey_port (h : BitVec 3) (off : Word) : (busKey h off).extractLsb' 33 2 = h.extractLsb' 1 2 := by
  apply BitVec.eq_of_getLsbD_eq
  intro i hi
  rw [BitVec.getLsbD_extractLsb', BitVec.getLsbD_extractLsb', getLsbD_busKey]
  simp [show ¬ 33 + i < 32 by omega, show 33 + i - 32 = 1 + i by omega]

theorem stimulusOfKey_read (off : Word) (r : Nat) : stimulusOfKey (busKey 0b000#3 off) r = .memRead off .word := by
  simp only [stimulusOfKey, busKey_off, busKey_we, busKey_port]
  rfl

theorem stimulusOfKey_write (off : Word) (r : Nat) :
    stimulusOfKey (busKey 0b001#3 off) r = .memWrite off .word (BitVec.ofNat 32 r) := by
  simp only [stimulusOfKey, busKey_off, busKey_we, busKey_port]
  rfl

theorem stimulusOfKey_write_toNat (off v : Word) :
    stimulusOfKey (busKey 0b001#3 off) v.toNat = .memWrite off .word v := by
  rw [stimulusOfKey_write, BitVec.ofNat_toNat, BitVec.setWidth_eq]

/-- The number of an operation stands for the stimulus that selects it. -/
theorem stimulusOfWord_encode (i : Instr) : stimulusOfWord (encode i) = stimulusOf i := by
  unfold encode
  rw [stimulusOfWord_key]
  cases i with
  | rdUnmapped off => exact stimulusOfKey_read off _
  | wrUnmapped off v => exact stimulusOfKey_write_toNat off v
  | inject idx level =>
    have h1 : (2 * indexToNat idx + level.toNat) / 2 = indexToNat idx := by cases level <;> simp; omega
    have h2 : ((2 * indexToNat idx + level.toNat) % 2 == 1) = level := by cases level <;> simp
    show stimulusOfKey 0x200000000#35 _ = _
    simp only [operandsOf, stimulusOfKey, stimulusOf, h1, h2, indexOfNat_indexToNat]
    rfl
  | wrCrl v => exact stimulusOfKey_write_toNat 0x00#32 v
  | wrCrh v => exact stimulusOfKey_write_toNat 0x04#32 v
  | wrIdr v => exact stimulusOfKey_write_toNat 0x08#32 v
  | wrOdr v => exact stimulusOfKey_write_toNat 0x0C#32 v
  | wrBsrr v => exact stimulusOfKey_write_toNat 0x10#32 v
  | wrBrr v => exact stimulusOfKey_write_toNat 0x14#32 v
  | wrLckr v => exact stimulusOfKey_write_toNat 0x18#32 v
  | rdCrl => rfl
  | rdCrh => rfl
  | rdIdr => rfl
  | rdOdr => rfl
  | rdBsrr => rfl
  | rdBrr => rfl
  | rdLckr => rfl
  | reset => rfl
  | por => rfl

end Sys2Proof
end

