-- ==== Sys2Proof/Laws/Ops.lean ====
section
/-! SUPPORT. The arbiter and the output path: everything the shared operations can do (41_data_registers.md R80, R86;
42_bit_set_reset.md R90; 44_pin_arbiter.md R110 to R114). -/

namespace Sys2Proof.Machine

theorem Port.isInput_iff (q : Port) (p : Pin) : q.isInput p = true ↔ q.modeOf p = modeInput := by
  simp [Port.isInput]

theorem Port.isOutput_iff (q : Port) (p : Pin) : q.isOutput p = true ↔ q.modeOf p ≠ modeInput := by
  simp [Port.isOutput, Port.isInput]

theorem maskFold (f : Pin → Bool) (r : Pin) (ps : List Pin) (m : PinMask) :
    (ps.foldl (fun m p => setPinBit m p (f p)) m).getLsbD r.val = if r ∈ ps then f r else m.getLsbD r.val := by
  induction ps generalizing m with
  | nil => simp
  | cons j js ih =>
    rw [List.foldl_cons, ih, getLsbD_setPinBit]
    by_cases e : r = j <;> simp [e]

/-- `OUTMASK[p] = (MODE[p] != 0)` (R84). -/
theorem getLsbD_outMask (q : Port) (p : Pin) : (outMask q).getLsbD p.val = q.isOutput p := by
  unfold outMask
  rw [maskFold]
  simp [pin_mem_allPins]

/-- What one pin's turn in a data-register write can do: nothing, or the event and the bit on an Output pin. -/
theorem applyOutputLevel_cases (p : Pin) (l : Level) (w : Work) :
    (w.port.isInput p = true ∧ applyOutputLevel p l w = w) ∨
    (w.port.isInput p = false ∧
      applyOutputLevel p l w =
        { port := w.port.setLevel p l, events := w.events ++ [⟨p, l⟩], diagnostics := w.diagnostics }) := by
  unfold applyOutputLevel
  cases h : w.port.isInput p
  · exact .inr ⟨rfl, rfl⟩
  · exact .inl ⟨rfl, rfl⟩

/-- One pin's turn in the loop of a data-register write. -/
theorem driveTurn_cases (want : Pin → Option Level) (p : Pin) (w : Work) :
    (match want p with | some l => applyOutputLevel p l w | none => w) = w ∧ (want p = none ∨ w.port.isInput p = true) ∨
    ∃ l, want p = some l ∧ w.port.isInput p = false ∧
      (match want p with | some l => applyOutputLevel p l w | none => w) =
        { port := w.port.setLevel p l, events := w.events ++ [⟨p, l⟩], diagnostics := w.diagnostics } := by
  cases h : want p with
  | none => exact .inl ⟨rfl, .inl rfl⟩
  | some l =>
    rcases applyOutputLevel_cases p l w with ⟨hi, he⟩ | ⟨hi, he⟩
    · exact .inl ⟨he, .inr hi⟩
    · exact .inr ⟨l, rfl, hi, he⟩

/-- What the loop of a data-register write asks of pin p, once the direction has been applied. -/
def effective (want : Pin → Option Level) (q : Port) (p : Pin) : Option Level :=
  if q.isInput p then none else want p

/-- The loop over any list of pins without repeats: the tables and diagnostics stay; each pin of the list takes the level wanted of it
if it is an Output pin; the events are those levels in the list's order. -/
theorem driveFold_spec (want : Pin → Option Level) (ps : List Pin) (nd : ps.Nodup) (w : Work) :
    let w' := ps.foldl (fun w p => match want p with | some l => applyOutputLevel p l w | none => w) w
    w'.port.mode = w.port.mode ∧ w'.port.cnf = w.port.cnf ∧ w'.diagnostics = w.diagnostics ∧
    (∀ r, w'.port.level r = if r ∈ ps then (effective want w.port r).getD (w.port.level r) else w.port.level r) ∧
    w'.events = w.events ++ ps.filterMap (fun p => (effective want w.port p).map (⟨p, ·⟩)) := by
  induction ps generalizing w with
  | nil => simp
  | cons j js ih =>
    rw [List.nodup_cons] at nd
    simp only [List.foldl_cons]
    rcases driveTurn_cases want j w with ⟨he, hn⟩ | ⟨l, hw, hi, he⟩
    · rw [he]
      obtain ⟨h1, h2, h3, h4, h5⟩ := ih nd.2 w
      have hj : effective want w.port j = none := by
        rcases hn with hn | hn <;> simp [effective, hn]
      refine ⟨h1, h2, h3, fun r => ?_, ?_⟩
      · rw [h4]
        by_cases e : r = j
        · subst e; simp [nd.1, hj]
        · simp [e]
      · rw [h5, List.filterMap_cons, hj]; rfl
    · rw [he]
      obtain ⟨h1, h2, h3, h4, h5⟩ := ih nd.2 { port := w.port.setLevel j l, events := w.events ++ [⟨j, l⟩], diagnostics := w.diagnostics }
      have hj : effective want w.port j = some l := by simp [effective, hi, hw]
      have hs : ∀ r, effective want (w.port.setLevel j l) r = effective want w.port r := fun r => rfl
      refine ⟨h1, h2, h3, fun r => ?_, ?_⟩
      · rw [h4]
        simp only [hs, Port.setLevel_level]
        by_cases e : r = j
        · subst e; simp [nd.1, hj]
        · simp [e]
      · rw [h5, List.filterMap_cons, hj]
        simp [hs]

/-- The loop over all the pins. -/
theorem driveAll_spec (want : Pin → Option Level) (w : Work) :
    (driveAll want w).port.mode = w.port.mode ∧ (driveAll want w).port.cnf = w.port.cnf ∧
    (driveAll want w).diagnostics = w.diagnostics ∧
    (∀ r, (driveAll want w).port.level r = (effective want w.port r).getD (w.port.level r)) ∧
    (driveAll want w).events = w.events ++ allPins.filterMap (fun p => (effective want w.port p).map (⟨p, ·⟩)) := by
  have h := driveFold_spec want allPins allPins_nodup w
  simp only [pin_mem_allPins, if_true] at h
  exact h

/-- A port with the same mode table has the same Input pins. -/
theorem Port.isInput_congr {q r : Port} (h : q.mode = r.mode) (p : Pin) : q.isInput p = r.isInput p := by
  simp [Port.isInput, Port.modeOf, h]

theorem effective_congr (want : Pin → Option Level) {q r : Port} (h : q.mode = r.mode) (p : Pin) :
    effective want q p = effective want r p := by
  simp [effective, Port.isInput_congr h]

/-- The index test of an injection (R111, R114). -/
theorem pinOfIndex_eq_some_iff (idx : Int) (p : Pin) : pinOfIndex idx = some p ↔ idx = (p.val : Int) := by
  have hp := p.isLt
  unfold pinOfIndex
  split
  · constructor
    · simp
    · intro h; omega
  · simp only [Option.some.injEq, Fin.ext_iff]
    omega

theorem pinOfIndex_eq_none_iff (idx : Int) : pinOfIndex idx = none ↔ idx < 0 ∨ idx > 15 := by
  unfold pinOfIndex
  split <;> simp_all

/-- What an injection can do: ignored, rejected with one warning, or accepted with one event (R111). -/
theorem injectLevel_cases (idx : Int) (l : Level) (w : Work) :
    ((idx < 0 ∨ idx > 15) ∧ injectLevel idx l w = w) ∨
    ∃ p : Pin, idx = (p.val : Int) ∧
      ((w.port.isInput p = false ∧ injectLevel idx l w = w.emitWarn p) ∨
       (w.port.isInput p = true ∧ injectLevel idx l w =
          { port := w.port.setLevel p l, events := w.events ++ [⟨p, l⟩], diagnostics := w.diagnostics })) := by
  unfold injectLevel
  cases h : pinOfIndex idx with
  | none => exact .inl ⟨(pinOfIndex_eq_none_iff idx).1 h, rfl⟩
  | some p =>
    refine .inr ⟨p, (pinOfIndex_eq_some_iff idx p).1 h, ?_⟩
    cases hi : w.port.isInput p
    · exact .inl ⟨rfl, by simp [hi]⟩
    · refine .inr ⟨rfl, ?_⟩
      simp only [hi, if_true]
      rfl

end Sys2Proof.Machine
end

