-- ==== Sys2Proof/Laws/Drive.lean ====
section
/-! SUPPORT. The three data-register loops, each said once: which levels it leaves and which events it emits (41_data_registers.md R84;
42_bit_set_reset.md R90). -/

namespace Sys2Proof.Machine

theorem effective_of_masked (b : Pin → Bool) (l : Pin → Level) (q : Port) (p : Pin) :
    effective (fun p => if b p then some (l p) else none) q p = if b p && q.isOutput p then some (l p) else none := by
  unfold effective Port.isOutput
  by_cases hb : b p = true <;> cases q.isInput p <;> simp [hb]

theorem masked_events (b : Pin → Bool) (l : Pin → Level) (q : Port) (ps : List Pin) :
    ps.filterMap (fun p => (effective (fun p => if b p then some (l p) else none) q p).map (⟨p, ·⟩)) =
      (ps.filter fun p => b p && q.isOutput p).map fun p => (⟨p, l p⟩ : ConnSet) := by
  induction ps with
  | nil => rfl
  | cons p ps ih =>
    rw [List.filterMap_cons, List.filter_cons, ih, effective_of_masked]
    cases b p && q.isOutput p <;> rfl

/-- A loop that asks level `l p` of the pins with `b p`. -/
theorem driveMasked_spec (b : Pin → Bool) (l : Pin → Level) (w w' : Work)
    (h : w' = driveAll (fun p => if b p then some (l p) else none) w) :
    w'.port.mode = w.port.mode ∧ w'.port.cnf = w.port.cnf ∧ w'.diagnostics = w.diagnostics ∧
    (∀ r, w'.port.level r = if b r && w.port.isOutput r then l r else w.port.level r) ∧
    w'.events = w.events ++ (allPins.filter fun p => b p && w.port.isOutput p).map fun p => ⟨p, l p⟩ := by
  subst h
  obtain ⟨h1, h2, h3, h4, h5⟩ := driveAll_spec (fun p => if b p then some (l p) else none) w
  refine ⟨h1, h2, h3, fun r => ?_, ?_⟩
  · rw [h4, effective_of_masked]
    cases b r && w.port.isOutput r <;> rfl
  · rw [h5, masked_events]

/-- `SetPhase` (R90). -/
theorem setPhase_spec (m : PinMask) (w w' : Work) (h : w' = setPhase m w) :
    w'.port.mode = w.port.mode ∧ w'.port.cnf = w.port.cnf ∧ w'.diagnostics = w.diagnostics ∧
    (∀ r, w'.port.level r = if m.getLsbD r.val && w.port.isOutput r then true else w.port.level r) ∧
    w'.events = w.events ++ (allPins.filter fun p => m.getLsbD p.val && w.port.isOutput p).map fun p => ⟨p, true⟩ :=
  driveMasked_spec (fun p => m.getLsbD p.val) (fun _ => true) w w' h

/-- `ResetPhase` (R90). -/
theorem resetPhase_spec (m : PinMask) (w w' : Work) (h : w' = resetPhase m w) :
    w'.port.mode = w.port.mode ∧ w'.port.cnf = w.port.cnf ∧ w'.diagnostics = w.diagnostics ∧
    (∀ r, w'.port.level r = if m.getLsbD r.val && w.port.isOutput r then false else w.port.level r) ∧
    w'.events = w.events ++ (allPins.filter fun p => m.getLsbD p.val && w.port.isOutput p).map fun p => ⟨p, false⟩ :=
  driveMasked_spec (fun p => m.getLsbD p.val) (fun _ => false) w w' h

/-- The loop of WR_ODR (R84). -/
theorem outputPhase_spec (m : PinMask) (w w' : Work) (h : w' = outputPhase m w) :
    w'.port.mode = w.port.mode ∧ w'.port.cnf = w.port.cnf ∧ w'.diagnostics = w.diagnostics ∧
    (∀ r, w'.port.level r = if w.port.isOutput r then m.getLsbD r.val else w.port.level r) ∧
    w'.events = w.events ++ (allPins.filter fun p => w.port.isOutput p).map fun p => ⟨p, m.getLsbD p.val⟩ := by
  simpa using driveMasked_spec (fun _ => true) (fun p => m.getLsbD p.val) w w' (by simpa [outputPhase] using h)

/-- The pins in ascending order. -/
theorem allPins_eq_finRange : allPins = List.finRange 16 := by decide

theorem Port.isOutput_eq (q : Port) (p : Pin) : q.isOutput p = (q.modeOf p != 0b00#2) := rfl

/-- A port that differs from another in its vector only. -/
theorem Port.eq_with_sig {q r : Port} (hm : r.mode = q.mode) (hc : r.cnf = q.cnf) : r = { q with sig := r.sig } := by
  cases r
  simp_all

theorem getLsbD_lowHalf (v : Word) (p : Pin) : (lowHalf v).getLsbD p.val = v.getLsbD p.val := by
  simp [lowHalf]

theorem getLsbD_highHalf (v : Word) (p : Pin) : (highHalf v).getLsbD p.val = v.getLsbD (16 + p.val) := by
  simp [highHalf]

end Sys2Proof.Machine
end

