-- ==== Sys2Proof/Laws/Exec.lean ====
section
/-! SUPPORT. What one operation and one step can do, said once; and that the events of an operation account for its levels
(44_pin_arbiter.md R115). -/

namespace Sys2Proof.Machine

/-- What an operation works out from the 80 bits: nothing but the port is read (10_state.md R19). -/
def workOf (i : Instr) (q : Port) : Work :=
  match i with
  | .wrCrl v => Work.start (writeConfig lowPin v q)
  | .wrCrh v => Work.start (writeConfig highPin v q)
  | .wrOdr v => outputPhase (lowHalf v) (Work.start q)
  | .wrBsrr v => resetPhase (highHalf v) (setPhase (lowHalf v) (Work.start q))
  | .wrBrr v => resetPhase (lowHalf v) (Work.start q)
  | .inject idx l => injectLevel idx l (Work.start q)
  | .reset => Work.start q.resetTables
  | .por => Work.start q.powerOn
  | .rdCrl | .rdCrh | .rdIdr | .rdOdr | .rdBsrr | .rdBrr | .rdLckr | .rdUnmapped _ => Work.start q
  | .wrIdr _ | .wrLckr _ | .wrUnmapped _ _ => Work.start q

/-- The result of an operation, from the policy and the 80 bits. -/
def resultOf (c : Config) (i : Instr) (q : Port) : Result :=
  match i with
  | .rdCrl => .data (readConfig lowPin q)
  | .rdCrh => .data (readConfig highPin q)
  | .rdIdr | .rdOdr => .data (readLevels q)
  | .rdBsrr | .rdBrr => .data 0x00000000#32
  | .rdLckr => if c.lckrPolicy = .razWi then .data 0x00000000#32 else .addressingError 0x18#32
  | .wrLckr _ => if c.lckrPolicy = .razWi then .ok else .addressingError 0x18#32
  | .rdUnmapped off | .wrUnmapped off _ => .addressingError off
  | .wrCrl _ | .wrCrh _ | .wrIdr _ | .wrOdr _ | .wrBsrr _ | .wrBrr _ | .inject _ _ | .reset | .por => .ok

/-- Every operation answers, from the policy and the 80 bits alone, and changes nothing but the port and the run (00_scope.md R8). -/
theorem exec_eq (i : Instr) (s : State) :
    exec i s = .next (s.answer i (resultOf s.config i s.port) (workOf i s.port)) := by
  cases i with
  | rdLckr => cases h : s.config.lckrPolicy <;> simp only [exec, execRdLckr, resultOf, h] <;> rfl
  | wrLckr v => cases h : s.config.lckrPolicy <;> simp only [exec, execWrLckr, resultOf, h] <;> rfl
  | rdCrl => rfl
  | wrCrl v => rfl
  | rdCrh => rfl
  | wrCrh v => rfl
  | rdIdr => rfl
  | wrIdr v => rfl
  | rdOdr => rfl
  | wrOdr v => rfl
  | rdBsrr => rfl
  | wrBsrr v => rfl
  | rdBrr => rfl
  | wrBrr v => rfl
  | rdUnmapped off => rfl
  | wrUnmapped off v => rfl
  | inject idx l => rfl
  | reset => rfl
  | por => rfl

/-- The inversion lemma of `exec`. -/
theorem exec_next {i : Instr} {s t : State} (h : exec i s = .next t) :
    t = s.answer i (resultOf s.config i s.port) (workOf i s.port) := by
  rw [exec_eq] at h
  injection h with h
  exact h.symm

/-- The inversion lemma of `step`: idle, one operation, or a presentation turned away. -/
theorem step_cases (s : State) :
    (s.pending = [] ∧ step s = .next s) ∨
    (∃ x rest i, s.pending = x :: rest ∧ decode x = .ok i ∧ step s = exec i { s with pending := rest }) ∨
    (∃ x rest r, s.pending = x :: rest ∧ decode x = .error r ∧ step s = .refused (refusalOf r)) := by
  unfold step takeStimulus
  cases h : s.pending with
  | nil => exact .inl ⟨rfl, rfl⟩
  | cons x rest =>
    cases hd : decode x with
    | ok i => exact .inr (.inl ⟨x, rest, i, rfl, hd, by simp [hd]⟩)
    | error r => exact .inr (.inr ⟨x, rest, r, rfl, hd, by simp [hd]⟩)

/-! ### Replay -/

theorem replayEvents_append (es fs : List ConnSet) (v : PinMask) :
    replayEvents (es ++ fs) v = replayEvents fs (replayEvents es v) := by
  simp [replayEvents]

/-- The events of an operation in progress, replayed on the vector it started from, give its vector. -/
def Work.accountsFor (w : Work) (v : PinMask) : Prop := replayEvents w.events v = w.port.sig

theorem Work.start_accountsFor (q : Port) : (Work.start q).accountsFor q.sig := rfl

theorem applyOutputLevel_accountsFor (p : Pin) (l : Level) {w : Work} {v : PinMask} (h : w.accountsFor v) :
    (applyOutputLevel p l w).accountsFor v := by
  rcases applyOutputLevel_cases p l w with ⟨-, he⟩ | ⟨-, he⟩
  · rw [he]; exact h
  · unfold Work.accountsFor at h ⊢
    rw [he, replayEvents_append, h]
    rfl

theorem driveFold_accountsFor (want : Pin → Option Level) (ps : List Pin) {w : Work} {v : PinMask} (h : w.accountsFor v) :
    (ps.foldl (fun w p => match want p with | some l => applyOutputLevel p l w | none => w) w).accountsFor v := by
  induction ps generalizing w with
  | nil => exact h
  | cons j js ih =>
    rw [List.foldl_cons]
    apply ih
    cases want j with
    | none => exact h
    | some l => exact applyOutputLevel_accountsFor j l h

theorem driveAll_accountsFor (want : Pin → Option Level) {w : Work} {v : PinMask} (h : w.accountsFor v) :
    (driveAll want w).accountsFor v := driveFold_accountsFor want allPins h

theorem injectLevel_accountsFor (idx : Int) (l : Level) {w : Work} {v : PinMask} (h : w.accountsFor v) :
    (injectLevel idx l w).accountsFor v := by
  rcases injectLevel_cases idx l w with ⟨-, he⟩ | ⟨p, -, ⟨-, he⟩ | ⟨-, he⟩⟩
  · rw [he]; exact h
  · rw [he]; exact h
  · unfold Work.accountsFor at h ⊢
    rw [he, replayEvents_append, h]
    rfl

end Sys2Proof.Machine
end

