-- ==== Sys2Proof/Laws/Runs.lean ====
section
/-! SUPPORT. Everything a whole drive write can do, what an operation keeps, and how a run is taken apart (41_data_registers.md R84;
42_bit_set_reset.md R91, R94; 70_reset_and_hazards.md R159). -/

namespace Sys2Proof.Machine

theorem Port.isOutput_congr {q r : Port} (h : q.mode = r.mode) (p : Pin) : q.isOutput p = r.isOutput p := by
  simp only [Port.isOutput, Port.isInput_congr h]

/-- Two operations in progress with the same entries, levels and emissions are equal. -/
theorem Work.ext_of {a b : Work} (hm : a.port.mode = b.port.mode) (hc : a.port.cnf = b.port.cnf)
    (hl : ∀ p, a.port.level p = b.port.level p) (he : a.events = b.events) (hd : a.diagnostics = b.diagnostics) : a = b := by
  obtain ⟨⟨am, ac, as⟩, ae, ad⟩ := a
  obtain ⟨⟨bm, bc, bs⟩, be, bd⟩ := b
  have : as = bs := pinMask_ext hl
  simp_all

/-- All that WR_ODR can do. -/
theorem workOf_wrOdr (v : Word) (q : Port) (w : Work) (hw : w = workOf (.wrOdr v) q) :
    w.port.mode = q.mode ∧ w.port.cnf = q.cnf ∧ w.diagnostics = [] ∧
    (∀ r, w.port.level r = if q.isOutput r then v.getLsbD r.val else q.level r) ∧
    w.events = (allPins.filter fun p => q.isOutput p).map fun p => ⟨p, v.getLsbD p.val⟩ := by
  have h := outputPhase_spec (lowHalf v) (Work.start q) w hw
  simpa only [Work.start_port, Work.start_events, Work.start_diagnostics, getLsbD_lowHalf, List.nil_append] using h

/-- All that WR_BRR can do. -/
theorem workOf_wrBrr (v : Word) (q : Port) (w : Work) (hw : w = workOf (.wrBrr v) q) :
    w.port.mode = q.mode ∧ w.port.cnf = q.cnf ∧ w.diagnostics = [] ∧
    (∀ r, w.port.level r = if v.getLsbD r.val && q.isOutput r then false else q.level r) ∧
    w.events = (allPins.filter fun p => v.getLsbD p.val && q.isOutput p).map fun p => ⟨p, false⟩ := by
  have h := resetPhase_spec (lowHalf v) (Work.start q) w hw
  simpa only [Work.start_port, Work.start_events, Work.start_diagnostics, getLsbD_lowHalf, List.nil_append] using h

/-- All that WR_BSRR can do. -/
theorem workOf_wrBsrr (v : Word) (q : Port) (w : Work) (hw : w = workOf (.wrBsrr v) q) :
    w.port.mode = q.mode ∧ w.port.cnf = q.cnf ∧ w.diagnostics = [] ∧
    (∀ r, w.port.level r = if v.getLsbD (16 + r.val) && q.isOutput r then false
      else if v.getLsbD r.val && q.isOutput r then true else q.level r) ∧
    w.events = ((allPins.filter fun p => v.getLsbD p.val && q.isOutput p).map fun p => (⟨p, true⟩ : ConnSet)) ++
      ((allPins.filter fun p => v.getLsbD (16 + p.val) && q.isOutput p).map fun p => ⟨p, false⟩) := by
  obtain ⟨h1, h2, h3, h4, h5⟩ := setPhase_spec (lowHalf v) (Work.start q) _ rfl
  obtain ⟨k1, k2, k3, k4, k5⟩ := resetPhase_spec (highHalf v) _ w hw
  simp only [Port.isOutput_congr h1, h4, h5, h3, Work.start_port, Work.start_events, Work.start_diagnostics, getLsbD_lowHalf,
    getLsbD_highHalf, List.nil_append] at k1 k2 k3 k4 k5
  exact ⟨k1.trans h1, k2.trans h2, k3, k4, k5⟩

/-- The operations that do not write the tables keep them. -/
theorem workOf_tables (i : Instr) (q : Port) (h : writesTables i = false) :
    (workOf i q).port.mode = q.mode ∧ (workOf i q).port.cnf = q.cnf := by
  cases i with
  | wrOdr v => obtain ⟨a1, a2, -⟩ := workOf_wrOdr v q _ rfl; exact ⟨a1, a2⟩
  | wrBrr v => obtain ⟨a1, a2, -⟩ := workOf_wrBrr v q _ rfl; exact ⟨a1, a2⟩
  | wrBsrr v => obtain ⟨a1, a2, -⟩ := workOf_wrBsrr v q _ rfl; exact ⟨a1, a2⟩
  | inject idx l =>
    rcases injectLevel_cases idx l (Work.start q) with ⟨-, he⟩ | ⟨p, -, ⟨-, he⟩ | ⟨-, he⟩⟩ <;> simp [workOf, he]
  | wrCrl _ => cases h
  | wrCrh _ => cases h
  | reset => cases h
  | por => cases h
  | _ => exact ⟨rfl, rfl⟩

/-- A configuration register reads as it was written (40_config_registers.md R75, at one operation). -/
theorem readConfig_writeConfig (pinAt : Fin 8 → Pin) (inj : Function.Injective pinAt) (v : Word) (q : Port) :
    readConfig pinAt (writeConfig pinAt v q) = v := by
  apply word_ext_nib
  intro k
  obtain ⟨h1, h2⟩ := writeConfig_at pinAt inj v q k
  rw [nib_readConfig, h1, h2, pack_unpack]

/-- The one form in which an operation's answer is stated. -/
theorem exec_of_work {i : Instr} {s : State} {q : Port} {r : Result} {es : List ConnSet} {ds : List Diagnostic}
    (h1 : (workOf i s.port).port = q) (h2 : resultOf s.config i s.port = r)
    (h3 : (workOf i s.port).events = es) (h4 : (workOf i s.port).diagnostics = ds) :
    exec i s = .next { s with port := q, transcript := s.transcript ++ [⟨i, ⟨r, es, ds⟩⟩] } := by
  rw [exec_eq, ← h1, ← h2, ← h3, ← h4]
  rfl

/-- The next state and the response of an operation, read off its line of the run. -/
theorem response_of_exec {i : Instr} {s t : State} {r : Response} (h : exec i s = .next t)
    (ht : t.transcript = s.transcript ++ [⟨i, r⟩]) :
    t = s.answer i (resultOf s.config i s.port) (workOf i s.port) ∧
    r = ⟨resultOf s.config i s.port, (workOf i s.port).events, (workOf i s.port).diagnostics⟩ := by
  have he := exec_next h
  refine ⟨he, ?_⟩
  rw [he, State.answer_transcript, List.append_cancel_left_eq] at ht
  injection ht with ht
  injection ht with _ ht
  exact ht.symm

/-- Only an injection warns, and only on an Output pin. -/
theorem workOf_diagnostics (i : Instr) (q : Port) :
    ((workOf i q).diagnostics = [] ∧ ∀ (p : Pin) l, i = .inject (p.val : Int) l → q.isInput p = true) ∨
    ∃ (p : Pin) (l : Level), i = .inject (p.val : Int) l ∧ q.isInput p = false ∧ workOf i q = (Work.start q).emitWarn p := by
  cases i with
  | wrOdr v => exact .inl ⟨(workOf_wrOdr v q _ rfl).2.2.1, by simp⟩
  | wrBrr v => exact .inl ⟨(workOf_wrBrr v q _ rfl).2.2.1, by simp⟩
  | wrBsrr v => exact .inl ⟨(workOf_wrBsrr v q _ rfl).2.2.1, by simp⟩
  | inject idx l =>
    rcases injectLevel_cases idx l (Work.start q) with ⟨h, he⟩ | ⟨p, hp, ⟨hi, he⟩ | ⟨hi, he⟩⟩
    · refine .inl ⟨by simp [workOf, he], fun p l h' => ?_⟩
      injection h' with h' _
      have := p.isLt
      omega
    · exact .inr ⟨p, l, by rw [hp], hi, he⟩
    · refine .inl ⟨by simp [workOf, he], fun r l h' => ?_⟩
      injection h' with h' _
      have : p = r := Fin.ext (by omega)
      subst this
      exact hi
  | _ => exact .inl ⟨rfl, by simp⟩

/-! ### Runs -/

theorem runOps_cons (i : Instr) (is : List Instr) (s : State) :
    runOps (i :: is) s = runOps is (s.answer i (resultOf s.config i s.port) (workOf i s.port)) := by
  simp [runOps, exec_eq]

theorem runOps_append (is js : List Instr) (s : State) :
    runOps (is ++ js) s =
      match runOps is s with
      | .next t => runOps js t
      | .fault r => .fault r
      | .refused r => .refused r := by
  induction is generalizing s with
  | nil => rfl
  | cons i is ih => rw [List.cons_append, runOps_cons, runOps_cons, ih]

/-- A run of operations always ends in a state; what each of them keeps, the run keeps. -/
theorem runOps_keeps {α : Type} (f : Port → α) (P : Instr → Prop) (hf : ∀ i q, P i → f (workOf i q).port = f q)
    (is : List Instr) (s : State) (h : ∀ i ∈ is, P i) : ∃ t, runOps is s = .next t ∧ f t.port = f s.port := by
  induction is generalizing s with
  | nil => exact ⟨s, rfl, rfl⟩
  | cons i is ih =>
    rw [runOps_cons]
    obtain ⟨t, h1, h2⟩ := ih (s.answer i (resultOf s.config i s.port) (workOf i s.port)) fun j hj => h j (by simp [hj])
    exact ⟨t, h1, h2.trans (hf i _ (h i (by simp)))⟩

/-! ### The masks of the shorthands (30_encoding.md R66) -/

theorem oneHot_low (p r : Pin) : (1#32 <<< p.val).getLsbD r.val = decide (r = p) := by revert p r; decide

theorem oneHot_high (p r : Pin) : (1#32 <<< p.val).getLsbD (16 + r.val) = false := by revert p r; decide

theorem allPins_filter_eq (p : Pin) : allPins.filter (fun r => decide (r = p)) = [p] := by revert p; decide

/-! ### The lane of one pin (41_data_registers.md R86) -/

/-- Of the events of one phase, those that name pin p. -/
theorem phase_filter_pin (p : Pin) (asked : Pin → Bool) (level : Pin → Level) :
    ((allPins.filter asked).map fun r => (⟨r, level r⟩ : ConnSet)).filter (fun e => e.pin == p) =
      if asked p then [⟨p, level p⟩] else [] := by
  have hp : allPins.filter (fun r => decide (r = p) && asked r) = if asked p then [p] else [] := by
    simp only [Bool.and_comm (decide _)]
    rw [← List.filter_filter, allPins_filter_eq, List.filter_cons, List.filter_nil]
  rw [List.filter_map, List.filter_filter]
  have hf : (fun r => ((fun e : ConnSet => e.pin == p) ∘ fun r => (⟨r, level r⟩ : ConnSet)) r && asked r) =
      fun r => decide (r = p) && asked r := by
    funext r
    simp [Function.comp, beq_eq_decide]
  rw [hf, hp]
  split <;> rfl

end Sys2Proof.Machine
end

