-- ==== Sys2Proof/Laws/Table.lean ====
section
/-! SUPPORT. The opcode table on a key taken apart into its three upper bits and its offset (30_encoding.md R50, R60). -/

namespace Sys2Proof

/-- Every key is its three upper bits over its offset. -/
theorem busKey_eta (key : BitVec 35) : key = busKey (key.extractLsb' 32 3) (key.extractLsb' 0 32) := by
  apply BitVec.eq_of_getLsbD_eq
  intro i hi
  rw [getLsbD_busKey]
  by_cases h : i < 32
  · simp [h]
  · simp only [h, if_false, BitVec.getLsbD_extractLsb']
    rw [show 32 + (i - 32) = i by omega]
    simp
    omega

theorem busKey_and (a c : BitVec 3) (b d : Word) : busKey a b &&& busKey c d = busKey (a &&& c) (b &&& d) := by
  apply BitVec.eq_of_getLsbD_eq
  intro i hi
  simp only [BitVec.getLsbD_and, getLsbD_busKey]
  split <;> rfl

theorem busKey_upper (h : BitVec 3) (off : Word) : (busKey h off).extractLsb' 32 3 = h := by
  apply BitVec.eq_of_getLsbD_eq
  intro i hi
  rw [BitVec.getLsbD_extractLsb', getLsbD_busKey]
  simp
  omega

theorem busKey_inj (a c : BitVec 3) (b d : Word) : busKey a b = busKey c d ↔ a = c ∧ b = d := by
  constructor
  · intro h
    exact ⟨by simpa only [busKey_upper] using congrArg (fun k => k.extractLsb' 32 3) h,
      by simpa only [busKey_off] using congrArg (fun k => k.extractLsb' 0 32) h⟩
  · rintro ⟨rfl, rfl⟩
    rfl

/-- A row whose pattern and mask are given in two parts matches a key part by part. -/
theorem matchesKey_parts (n : String) (a c h : BitVec 3) (b d off : Word) :
    (OpcodeRow.mk n (busKey a b) (busKey c d)).matchesKey (busKey h off) = (decide (h &&& c = a) && decide (off &&& d = b)) := by
  simp only [OpcodeRow.matchesKey, busKey_and]
  rw [Bool.eq_iff_iff, beq_iff_eq, busKey_inj]
  simp

theorem and_allOnes_word (off : Word) : off &&& 0xFFFFFFFF#32 = off := by
  rw [show (0xFFFFFFFF#32) = BitVec.allOnes 32 from rfl, BitVec.and_allOnes]

/-- The exact rows with their keys in two parts. -/
theorem exactRows_parts : exactRows = [
  ⟨"RD_CRL", busKey 0 0, busKey 7 0xFFFFFFFF#32⟩,
  ⟨"WR_CRL", busKey 1 0, busKey 7 0xFFFFFFFF#32⟩,
  ⟨"RD_CRH", busKey 0 4, busKey 7 0xFFFFFFFF#32⟩,
  ⟨"WR_CRH", busKey 1 4, busKey 7 0xFFFFFFFF#32⟩,
  ⟨"RD_IDR", busKey 0 8, busKey 7 0xFFFFFFFF#32⟩,
  ⟨"WR_IDR", busKey 1 8, busKey 7 0xFFFFFFFF#32⟩,
  ⟨"RD_ODR", busKey 0 12, busKey 7 0xFFFFFFFF#32⟩,
  ⟨"WR_ODR", busKey 1 12, busKey 7 0xFFFFFFFF#32⟩,
  ⟨"RD_BSRR", busKey 0 16, busKey 7 0xFFFFFFFF#32⟩,
  ⟨"WR_BSRR", busKey 1 16, busKey 7 0xFFFFFFFF#32⟩,
  ⟨"RD_BRR", busKey 0 20, busKey 7 0xFFFFFFFF#32⟩,
  ⟨"WR_BRR", busKey 1 20, busKey 7 0xFFFFFFFF#32⟩,
  ⟨"RD_LCKR", busKey 0 24, busKey 7 0xFFFFFFFF#32⟩,
  ⟨"WR_LCKR", busKey 1 24, busKey 7 0xFFFFFFFF#32⟩,
  ⟨"INJECT", busKey 2 0, busKey 6 0⟩,
  ⟨"RESET", busKey 4 0, busKey 6 0⟩,
  ⟨"POR", busKey 6 0, busKey 6 0⟩] := by rfl

/-- The default rows with their keys in two parts. -/
theorem defaultRows_parts : defaultRows = [⟨"RD_UNMAPPED", busKey 0 0, busKey 7 0⟩, ⟨"WR_UNMAPPED", busKey 1 0, busKey 7 0⟩] := rfl

/-- A bus key whose offset is none of the seven selects a default row and no exact row. -/
theorem rowsFor_unmapped (off : Word)
    (h : off ≠ 0x00#32 ∧ off ≠ 0x04#32 ∧ off ≠ 0x08#32 ∧ off ≠ 0x0C#32 ∧ off ≠ 0x10#32 ∧ off ≠ 0x14#32 ∧ off ≠ 0x18#32) :
    rowsFor (busKey 0#3 off) = [⟨"RD_UNMAPPED", busKey 0 0, busKey 7 0⟩] ∧
    rowsFor (busKey 1#3 off) = [⟨"WR_UNMAPPED", busKey 1 0, busKey 7 0⟩] := by
  obtain ⟨h0, h1, h2, h3, h4, h5, h6⟩ := h
  unfold rowsFor
  rw [exactRows_parts, defaultRows_parts]
  simp only [List.filter_cons, List.filter_nil, matchesKey_parts, and_allOnes_word]
  simp [h0, h1, h2, h3, h4, h5, h6]

end Sys2Proof
end

