-- ==== Sys2Proof/Tests/Slice0.lean ====
section
/-! SUPPORT. The model's own tests. Expected values are the spec's: its vectors S1 to S7, V1 to V80 and P1 to P4 (95_test_vectors.md) and the keys of
30_encoding.md R58, named beside each; then one witness for every obligation that has hypotheses. -/

namespace Sys2Proof.Tests

open Sys2Proof.Machine

/-! ### Small states, and what a vector shows -/

/-- A block given as the vectors give it: `CRL`, `CRH` and `SIG`. -/
def blockAt (crl crh : Word) (sig : PinMask) : State :=
  { State.reset with port := { writeConfig lowPin crl (writeConfig highPin crh Port.reset) with sig := sig } }

/-- The same block under the other policy. -/
def rejecting (s : State) : State := { s with config := { lckrPolicy := .reject } }

/-- What one vector line shows: the response, and `SIG` after it. -/
def lineOf : Host.Outcome State Fault Refusal → Option (Response × PinMask)
  | .next t => t.transcript.getLast?.map fun e => (e.response, t.port.sig)
  | .fault _ => none
  | .refused _ => none

/-- `CRL`, `CRH` and `SIG` after one operation. -/
def blockOf : Host.Outcome State Fault Refusal → Option (Word × Word × PinMask)
  | .next t => some (readConfig lowPin t.port, readConfig highPin t.port, t.port.sig)
  | .fault _ => none
  | .refused _ => none

/-- The refusal of a step, if it refused. -/
def refusalIn : Host.Outcome State Fault Refusal → Option Refusal
  | .next _ => none
  | .fault _ => none
  | .refused r => some r

/-- The start of V10 to V16: pins 0 to 3 are Output pins, pins 4 and 15 were injected high. -/
def mixed : State := blockAt 0x44447321#32 0x44444444#32 0x8010#16

/-- Every pin an Output pin (S7). -/
def allOutput : State := blockAt 0x33333333#32 0x33333333#32 0xFFFF#16

/-! ### Well-formedness: the one check, and terms it refuses -/

theorem test_wellFormed_refuses_read_of_first_register : (Instr.rdUnmapped 0x00#32).wellFormed = false := by decide
theorem test_wellFormed_refuses_write_of_last_register : (Instr.wrUnmapped 0x18#32 0x1#32).wellFormed = false := by decide
theorem test_wellFormed_takes_next_offset : (Instr.rdUnmapped 0x1C#32).wellFormed = true := by decide
theorem test_wellFormed_takes_misaligned_offset : (Instr.wrUnmapped 0x0D#32 0x1#32).wellFormed = true := by decide

/-! ### Decoding: a word for every constructor, its key from R58 (bits 34:0), its operands from bit 40 up -/

theorem test_word_rdCrl : decodeTableWord 40 0x0000000000 = some .rdCrl := by decide
theorem test_word_wrCrl : decodeTableWord 72 0x123456780100000000 = some (.wrCrl 0x12345678#32) := by decide
theorem test_word_rdCrh : decodeTableWord 40 0x0000000004 = some .rdCrh := by decide
theorem test_word_wrCrh : decodeTableWord 72 0x89ABCDEF0100000004 = some (.wrCrh 0x89ABCDEF#32) := by decide
theorem test_word_rdIdr : decodeTableWord 40 0x0000000008 = some .rdIdr := by decide
theorem test_word_wrIdr : decodeTableWord 72 0xFFFFFFFF0100000008 = some (.wrIdr 0xFFFFFFFF#32) := by decide
theorem test_word_rdOdr : decodeTableWord 40 0x000000000C = some .rdOdr := by decide
theorem test_word_wrOdr : decodeTableWord 72 0xABCD0000010000000C = some (.wrOdr 0xABCD0000#32) := by decide
theorem test_word_rdBsrr : decodeTableWord 40 0x0000000010 = some .rdBsrr := by decide
theorem test_word_wrBsrr : decodeTableWord 72 0x002000200100000010 = some (.wrBsrr 0x00200020#32) := by decide
theorem test_word_rdBrr : decodeTableWord 40 0x0000000014 = some .rdBrr := by decide
theorem test_word_wrBrr : decodeTableWord 72 0x0000FFF00100000014 = some (.wrBrr 0x0000FFF0#32) := by decide
theorem test_word_rdLckr : decodeTableWord 40 0x0000000018 = some .rdLckr := by decide
theorem test_word_wrLckr : decodeTableWord 72 0x0001FFFF0100000018 = some (.wrLckr 0x0001FFFF#32) := by decide
theorem test_word_rdUnmapped : decodeTableWord 40 0x000000001C = some (.rdUnmapped 0x1C#32) := by decide
theorem test_word_rdUnmapped_top : decodeTableWord 40 0x00FFFFFFFC = some (.rdUnmapped 0xFFFFFFFC#32) := by decide
theorem test_word_wrUnmapped : decodeTableWord 72 0x00000001010000000D = some (.wrUnmapped 0x0D#32 0x1#32) := by decide
theorem test_word_inject : decodeTableWord 48 0x1D0200000000 = some (.inject 7 true) := by decide
theorem test_word_inject_negative : decodeTableWord 48 0x030200000000 = some (.inject (-1) true) := by decide
/-- R50: `we` and `off` are don't-care off the bus. -/
theorem test_word_inject_dont_care : decodeTableWord 40 0x03FFFFFFFF = some (.inject 0 false) := by decide
theorem test_word_reset : decodeTableWord 40 0x0400000000 = some .reset := by decide
theorem test_word_por : decodeTableWord 40 0x0600000000 = some .por := by decide
/-- V44: 0x400 is no alias of 0x00. -/
theorem test_word_no_alias : decodeTableWord 40 0x0000000400 = some (.rdUnmapped 0x400#32) := by decide
theorem test_encode_wrBsrr : encode (.wrBsrr 0x00200020#32) = 0x002000200100000010 := by decide

/-! ### One operation each -/

/-- S1, and R141. -/
theorem test_rdCrl_reset : lineOf (exec .rdCrl State.reset) = some (⟨.data 0x44444444#32, [], []⟩, 0x0000#16) := by decide
/-- S6. -/
theorem test_rdCrl_pattern : lineOf (exec .rdCrl (blockAt 0x12345678#32 0x44444444#32 0#16)) =
    some (⟨.data 0x12345678#32, [], []⟩, 0x0000#16) := by decide
/-- S2: pin 3 becomes Output-50MHz and Push-pull. -/
theorem test_wrCrl_pin3 : blockOf (exec (.wrCrl 0x44443444#32) State.reset) = some (0x44443444#32, 0x44444444#32, 0x0000#16) := by decide
/-- V8: no event, the levels stay. -/
theorem test_wrCrl_keeps_levels : lineOf (exec (.wrCrl 0x33333333#32) (blockAt 0x44444444#32 0x44444444#32 0x0010#16)) =
    some (⟨.ok, [], []⟩, 0x0010#16) := by decide
/-- V7. -/
theorem test_rdCrh_pattern : lineOf (exec .rdCrh (blockAt 0x44444444#32 0x89ABCDEF#32 0#16)) =
    some (⟨.data 0x89ABCDEF#32, [], []⟩, 0x0000#16) := by decide
/-- V6: pin 8 has the lowest nibble, pin 15 the highest. -/
theorem test_wrCrh_pattern : blockOf (exec (.wrCrh 0x89ABCDEF#32) State.reset) = some (0x44444444#32, 0x89ABCDEF#32, 0x0000#16) := by decide
/-- V6: the entries of pins 8 and 15. -/
theorem test_wrCrh_ends : (blockAt 0x44444444#32 0x89ABCDEF#32 0#16).port.modeOf 8 = 0b11#2 ∧
    (blockAt 0x44444444#32 0x89ABCDEF#32 0#16).port.modeOf 15 = 0b00#2 ∧
    (blockAt 0x44444444#32 0x89ABCDEF#32 0#16).port.cnfOf 15 = 0b10#2 := by decide
/-- V10. -/
theorem test_rdIdr_mixed : lineOf (exec .rdIdr mixed) = some (⟨.data 0x00008010#32, [], []⟩, 0x8010#16) := by decide
/-- V17. -/
theorem test_wrIdr_ignored : lineOf (exec (.wrIdr 0xFFFFFFFF#32) (blockAt 0x44444444#32 0x44444444#32 0x0008#16)) =
    some (⟨.ok, [], []⟩, 0x0008#16) := by decide
/-- V12. -/
theorem test_rdOdr_is_levels : lineOf (exec .rdOdr (blockAt 0x44447321#32 0x44444444#32 0x801F#16)) =
    some (⟨.data 0x0000801F#32, [], []⟩, 0x801F#16) := by decide
/-- V11. -/
theorem test_wrOdr_ones : lineOf (exec (.wrOdr 0xFFFFFFFF#32) mixed) =
    some (⟨.ok, [⟨0, true⟩, ⟨1, true⟩, ⟨2, true⟩, ⟨3, true⟩], []⟩, 0x801F#16) := by decide +kernel
/-- V13. -/
theorem test_wrOdr_zeros_drive_low : lineOf (exec (.wrOdr 0x00000005#32) (blockAt 0x44447321#32 0x44444444#32 0x801F#16)) =
    some (⟨.ok, [⟨0, true⟩, ⟨1, false⟩, ⟨2, true⟩, ⟨3, false⟩], []⟩, 0x8015#16) := by decide +kernel
/-- V26. -/
theorem test_rdBsrr_zero : lineOf (exec .rdBsrr allOutput) = some (⟨.data 0x00000000#32, [], []⟩, 0xFFFF#16) := by decide
/-- V28. -/
theorem test_wrBsrr_mixed_masks : lineOf (exec (.wrBsrr 0x00050003#32) (blockAt 0x44447321#32 0x44444444#32 0x000F#16)) =
    some (⟨.ok, [⟨0, true⟩, ⟨1, true⟩, ⟨0, false⟩, ⟨2, false⟩], []⟩, 0x000A#16) := by decide
/-- V24: only Input pins named. -/
theorem test_wrBsrr_input_pins : lineOf (exec (.wrBsrr 0x00F000F0#32) (blockAt 0x44447321#32 0x44444444#32 0x0000#16)) =
    some (⟨.ok, [], []⟩, 0x0000#16) := by decide
/-- V34. -/
theorem test_rdBrr_zero : lineOf (exec .rdBrr allOutput) = some (⟨.data 0x00000000#32, [], []⟩, 0xFFFF#16) := by decide
/-- V30. -/
theorem test_wrBrr_mask : lineOf (exec (.wrBrr 0x00000005#32) (blockAt 0x44447321#32 0x44444444#32 0x000F#16)) =
    some (⟨.ok, [⟨0, false⟩, ⟨2, false⟩], []⟩, 0x000A#16) := by decide
/-- V31: the upper half is no mask. -/
theorem test_wrBrr_upper_half : lineOf (exec (.wrBrr 0xFFFF0000#32) (blockAt 0x44447321#32 0x44444444#32 0x000A#16)) =
    some (⟨.ok, [], []⟩, 0x000A#16) := by decide
/-- V37 and V48. -/
theorem test_rdLckr : lineOf (exec .rdLckr mixed) = some (⟨.data 0x00000000#32, [], []⟩, 0x8010#16) ∧
    lineOf (exec .rdLckr (rejecting mixed)) = some (⟨.addressingError 0x18#32, [], []⟩, 0x8010#16) := by decide
/-- V36 and V47. -/
theorem test_wrLckr : lineOf (exec (.wrLckr 0x0001FFFF#32) mixed) = some (⟨.ok, [], []⟩, 0x8010#16) ∧
    lineOf (exec (.wrLckr 0x0001FFFF#32) (rejecting mixed)) = some (⟨.addressingError 0x18#32, [], []⟩, 0x8010#16) := by decide
/-- V42. -/
theorem test_rdUnmapped : lineOf (exec (.rdUnmapped 0x02#32) mixed) = some (⟨.addressingError 0x02#32, [], []⟩, 0x8010#16) := by decide
/-- V43. -/
theorem test_wrUnmapped : lineOf (exec (.wrUnmapped 0x0D#32 0x1#32) mixed) = some (⟨.addressingError 0x0D#32, [], []⟩, 0x8010#16) := by decide
/-- V51 and V63: the highest pin; an Input pin of the unnamed configuration accepts. -/
theorem test_inject_accepted : lineOf (exec (.inject 15 true) (blockAt 0x44444444#32 0xC4444444#32 0x0001#16)) =
    some (⟨.ok, [⟨15, true⟩], []⟩, 0x8001#16) := by decide
/-- V59 and V54: rejected on an Output pin although the level is the same; ignored just out of range. -/
theorem test_inject_not_accepted :
    lineOf (exec (.inject 15 true) (blockAt 0x44444444#32 0x14444444#32 0x8000#16)) = some (⟨.ok, [], [.wrongDirection 15]⟩, 0x8000#16) ∧
    lineOf (exec (.inject 16 true) (blockAt 0x44444444#32 0x14444444#32 0x8000#16)) = some (⟨.ok, [], []⟩, 0x8000#16) := by decide
/-- V73. -/
theorem test_reset : blockOf (exec .reset (blockAt 0x44444443#32 0x44444444#32 0x0401#16)) =
    some (0x44444444#32, 0x44444444#32, 0x0401#16) := by decide
/-- V79. -/
theorem test_por : blockOf (exec .por (blockAt 0x44444443#32 0x44444414#32 0x0400#16)) =
    some (0x44444444#32, 0x44444444#32, 0x0000#16) := by decide

/-! ### One step -/

/-- P3 line 6: the presented stimulus is decoded and served. -/
theorem test_step_serves_stimulus :
    lineOf (step ((blockAt 0x44444444#32 0x44444411#32 0x0700#16).withFetchWord 72 0x030001000100000010)) =
      some (⟨.ok, [⟨8, true⟩, ⟨8, false⟩, ⟨9, false⟩], []⟩, 0x0400#16) := by decide
/-- R35, U14. -/
theorem test_step_refuses_byte_read : refusalIn (step { mixed with pending := [.memRead 0x08#32 .byte] }) = some (.narrowAccess .byte) := by decide
/-- R143, U12. -/
theorem test_step_refuses_framework_reset : refusalIn (step { mixed with pending := [.frameworkReset] }) = some .frameworkReset := by decide

/-! ### Names and lines -/

/-- S2: nibble 0x3 is Output-50MHz and Push-pull; R23: nibble 0x4 is Input and Floating. -/
theorem test_names : modeName (unpackMode 0x3#4) = .output50MHz ∧ cnfName (unpackMode 0x3#4) (unpackCnf 0x3#4) = .pushPull ∧
    modeName (unpackMode 0x4#4) = .input ∧ cnfName (unpackMode 0x4#4) (unpackCnf 0x4#4) = .floating := by decide
/-- P1 lines 2 and 3: `CFGPIN 0, 3, 0` writes 0x44444443 back. -/
theorem test_cfgPin_word : (cfgPinWriteLine 0 0b11#2 0b00#2 0x44444444#32).stimulus = .memWrite 0x00#32 .word 0x44444443#32 := by decide
/-- P1 lines 4 and 7: `SETPIN 0` and `CLRPIN 0`. -/
theorem test_pin_shorthands : (setPinLine 0).stimulus = .memWrite 0x10#32 .word 0x00000001#32 ∧
    (clrPinLine 0).stimulus = .memWrite 0x14#32 .word 0x00000001#32 := by decide

/-! ### Witnesses: a concrete state and operands that meet the hypotheses of each obligation that has some -/

/-- Every operation answers from every state, so the premise `exec i s = .next t` with its line of the run is met by each. -/
theorem witness_exec_answers (i : Instr) (s : State) :
    ∃ (t : State) (r : Response), exec i s = .next t ∧ t.transcript = s.transcript ++ [⟨i, r⟩] :=
  ⟨_, _, exec_eq i s, rfl⟩

theorem witness_DecodeOfEncodeIsTheOperation :
    (Instr.wrCrl 0xDEADBEEF#32).wellFormed = true ∧ (Instr.rdUnmapped 0xFFFFFFFF#32).wellFormed = true ∧
    (Instr.wrUnmapped 0x19#32 0#32).wellFormed = true ∧ (Instr.inject (-1000) true).wellFormed = true := by decide

theorem witness_EncodeOfDecodeIsTheStimulus :
    decode (.memRead 0x17#32 .word) = .ok (.rdUnmapped 0x17#32) ∧ decode (.inject 99 false) = .ok (.inject 99 false) ∧
    decode (.memWrite 0x18#32 .word 5#32) = .ok (.wrLckr 5#32) := ⟨rfl, rfl, rfl⟩

theorem witness_StepRunsTheDecodedOperation :
    ({ mixed with pending := [.memWrite 0x0C#32 .word 5#32, .reset] } : State).pending = .memWrite 0x0C#32 .word 5#32 :: [.reset] ∧
    decode (.memWrite 0x0C#32 .word 5#32) = .ok (.wrOdr 5#32) := ⟨rfl, rfl⟩

/-- One state for each clause, with both narrow widths. -/
theorem witness_StepRefusesWhatIsNoStimulus :
    mixed.pending = [] ∧
    ({ mixed with pending := [.frameworkReset, .reset] } : State).pending = .frameworkReset :: [.reset] ∧
    (AccessSize.byte ≠ .word ∧ ({ mixed with pending := [.memRead 0x00#32 .byte] } : State).pending = .memRead 0x00#32 .byte :: []) ∧
    (AccessSize.halfword ≠ .word ∧
      ({ mixed with pending := [.memWrite 0x0C#32 .halfword 1#32] } : State).pending = .memWrite 0x0C#32 .halfword 1#32 :: []) := by decide

theorem witness_StimuliAreServedInOrder :
    (∀ i ∈ [Instr.wrCrl 3#32, .inject 7 true, .rdUnmapped 0x1C#32], i.wellFormed = true) ∧
    ({ mixed with pending := [.memWrite 0x00#32 .word 3#32, .inject 7 true, .memRead 0x1C#32 .word, .powerOn] } : State).pending =
      [Instr.wrCrl 3#32, .inject 7 true, .rdUnmapped 0x1C#32].map stimulusOf ++ [.powerOn] := by decide

theorem witness_ReadConfigReturnsTheTables : ∀ p : Pin, State.reset.port.modeOf p = 0b00#2 ∧ State.reset.port.cnfOf p = 0b01#2 := by decide

/-- One run for each clause: the other register's write counts as no write of the same register. -/
theorem witness_ConfigRoundTripOverAnyRun :
    (∀ i ∈ [Instr.wrCrh 1#32, .inject 3 true, .rdCrl], writesTables i = false ∨ ∃ w, i = .wrCrh w) ∧
    (∀ i ∈ [Instr.wrCrl 1#32, .wrBsrr 2#32], writesTables i = false ∨ ∃ w, i = .wrCrl w) := by
  simp [writesTables]

theorem witness_OutputDataEqualsFullBitSetReset : ∀ p : Pin, allOutput.port.modeOf p ≠ 0b00#2 := by decide

theorem witness_LockRegisterUnderBothPolicies :
    mixed.config.lckrPolicy = .razWi ∧ (rejecting mixed).config.lckrPolicy = .reject := by decide

/-- The offsets next to a mapped one, inside a mapped word, and at the top. -/
theorem witness_UnmappedAccessIsAddressingError_and_DispatchByWholeOffset :
    ∀ off ∈ [0x01#32, 0x02#32, 0x17#32, 0x19#32, 0x1C#32, 0x400#32, 0xFFFFFFFF#32],
      off.toNat ∉ [0x00, 0x04, 0x08, 0x0C, 0x10, 0x14, 0x18] := by simp

/-- Both directions at pins 0 and 15; a configuration write that changes the direction of pin 0. -/
theorem witness_EachPinHasOneOwner :
    ((Work.start State.reset.port).port.modeOf 0 = 0b00#2 ∧ (Work.start State.reset.port).port.modeOf 15 = 0b00#2) ∧
    ((Work.start allOutput.port).port.modeOf 0 ≠ 0b00#2 ∧ (Work.start allOutput.port).port.modeOf 15 ≠ 0b00#2) ∧
    ∃ t, exec (.wrCrl 0x1#32) State.reset = .next t ∧ State.reset.port.modeOf 0 = 0b00#2 ∧ t.port.modeOf 0 ≠ 0b00#2 :=
  ⟨by decide, by decide, _, exec_eq _ _, by decide, by decide⟩

theorem witness_InjectionOnInputIsAccepted :
    State.reset.port.modeOf 0 = 0b00#2 ∧ State.reset.port.modeOf 15 = 0b00#2 ∧ mixed.port.modeOf 4 = 0b00#2 := by decide

theorem witness_InjectionOnOutputIsRejected :
    mixed.port.modeOf 0 ≠ 0b00#2 ∧ mixed.port.modeOf 3 ≠ 0b00#2 ∧ allOutput.port.modeOf 15 ≠ 0b00#2 := by decide

theorem witness_InjectionOutOfRangeIsIgnored : ∀ idx ∈ [(-1 : Int), 16, 1000], idx < 0 ∨ 16 ≤ idx := by decide

theorem witness_TablesChangeOnlyByConfigWritesAndResets :
    writesTables (.wrBsrr 1#32) = false ∧ ∃ t, exec (.wrBsrr 1#32) mixed = .next t := ⟨rfl, _, exec_eq _ _⟩

/-- One operation for each clause: power-on, a drive of an Output pin, an accepted injection, each with a level that changes. -/
theorem witness_LevelsChangeOnlyByTheirOwner :
    (∃ t, exec .por mixed = .next t ∧ t.port.level 15 ≠ mixed.port.level 15) ∧
    (∃ t, exec (.wrBsrr 0x1#32) mixed = .next t ∧ t.port.level 0 ≠ mixed.port.level 0) ∧
    (∃ t, exec (.inject 15 false) mixed = .next t ∧ t.port.level 15 ≠ mixed.port.level 15) :=
  ⟨⟨_, exec_eq _ _, by decide⟩, ⟨_, exec_eq _ _, by decide⟩, ⟨_, exec_eq _ _, by decide⟩⟩

theorem witness_ReadsHaveNoSideEffects : isBusRead .rdIdr = true ∧ isBusRead (.rdUnmapped 0x1C#32) = true := by decide

theorem witness_RepeatedWritesRepeatTheirEvents : isBusWrite (.wrBsrr 0x000F000F#32) = true ∧ isBusWrite (.wrLckr 1#32) = true := by decide

theorem witness_ReservedBitsReadZeroAndAreIgnored :
    (RegName.lckr = .lckr → mixed.config.lckrPolicy = .razWi) ∧ (RegName.idr = .lckr → (rejecting mixed).config.lckrPolicy = .razWi) := by decide

/-- Operations of each shape; the premise of the last clause is met by a failing read, and by a failing write under the policy REJECT. -/
theorem witness_AddressingErrorIsExact :
    ((Instr.rdUnmapped 0x1C#32).wellFormed = true ∧ (Instr.wrLckr 0x1#32).wellFormed = true ∧ (Instr.wrOdr 0x1#32).wellFormed = true) ∧
    (lineOf (exec (.rdUnmapped 0x1C#32) mixed)).map (·.1.result.err) = some true ∧
    (lineOf (exec (.wrLckr 0x1#32) (rejecting mixed))).map (·.1.result.err) = some true := by decide

theorem witness_WarningIsExactlyARejectedInjection :
    ∃ t r, exec (.inject 0 true) mixed = .next t ∧ t.transcript = mixed.transcript ++ [⟨.inject 0 true, r⟩] ∧ r.diagnostics ≠ [] :=
  ⟨_, _, exec_eq _ _, rfl, by decide⟩

theorem witness_AtMostOneConditionAndNoTrace :
    ∃ t r, exec (.inject 3 true) mixed = .next t ∧ t.transcript = mixed.transcript ++ [⟨.inject 3 true, r⟩] ∧ r.conditions = 1 :=
  ⟨_, _, exec_eq _ _, rfl, by decide⟩

theorem witness_AllInputPortDropsEveryDrive :
    (∀ p : Pin, State.reset.port.modeOf p = 0b00#2) ∧ isBusWrite (.wrOdr 0xFFFF#32) = true := by decide

theorem witness_AllOutputPortRejectsEveryInjection : ∀ p : Pin, allOutput.port.modeOf p ≠ 0b00#2 := by decide

/-- Two different blocks and words that agree on pin 0's lane, and the three forms of a drive write on them. -/
theorem witness_DriveLanesAreIndependent :
    (mixed.port.modeOf 0 = (blockAt 0x00000001#32 0x3#32 0x0002#16).port.modeOf 0 ∧
      mixed.port.level 0 = (blockAt 0x00000001#32 0x3#32 0x0002#16).port.level 0 ∧
      (0x00010001#32).getLsbD 0 = (0xFFFF0003#32).getLsbD 0 ∧ (0x00010001#32).getLsbD 16 = (0xFFFF0003#32).getLsbD 16) ∧
    ∀ pair ∈ [(Instr.wrOdr 0x00010001#32, Instr.wrOdr 0xFFFF0003#32), (.wrBsrr 0x00010001#32, .wrBsrr 0xFFFF0003#32),
        (.wrBrr 0x00010001#32, .wrBrr 0xFFFF0003#32)],
      pair.1 = .wrOdr 0x00010001#32 ∧ pair.2 = .wrOdr 0xFFFF0003#32 ∨ pair.1 = .wrBsrr 0x00010001#32 ∧ pair.2 = .wrBsrr 0xFFFF0003#32 ∨
        pair.1 = .wrBrr 0x00010001#32 ∧ pair.2 = .wrBrr 0xFFFF0003#32 := by decide

/-- Two blocks with the same Input pins and levels, of other speeds and configurations, and one drive write on each. -/
theorem witness_OnlyDirectionsAndLevelsMatter :
    ((∀ p : Pin, mixed.port.modeOf p = 0b00#2 ↔ (blockAt 0xC0841DBF#32 0x44444444#32 0x8010#16).port.modeOf p = 0b00#2) ∧
      mixed.port.sig = (blockAt 0xC0841DBF#32 0x44444444#32 0x8010#16).port.sig ∧
      mixed.config = (blockAt 0xC0841DBF#32 0x44444444#32 0x8010#16).config ∧ readsTables (.wrOdr 0x5#32) = false) ∧
    ∃ t t' r r', exec (.wrOdr 0x5#32) mixed = .next t ∧ t.transcript = mixed.transcript ++ [⟨.wrOdr 0x5#32, r⟩] ∧
      exec (.wrOdr 0x5#32) (blockAt 0xC0841DBF#32 0x44444444#32 0x8010#16) = .next t' ∧
      t'.transcript = (blockAt 0xC0841DBF#32 0x44444444#32 0x8010#16).transcript ++ [⟨.wrOdr 0x5#32, r'⟩] :=
  ⟨by decide, _, _, _, _, exec_eq _ _, rfl, exec_eq _ _, rfl⟩

theorem witness_RunHistoryNeverFeedsBack :
    mixed.port = ({ mixed with pending := [.reset], transcript := [⟨.por, ⟨.ok, [], []⟩⟩] } : State).port ∧
    mixed.config = ({ mixed with pending := [.reset], transcript := [⟨.por, ⟨.ok, [], []⟩⟩] } : State).config := ⟨rfl, rfl⟩

theorem witness_NoOutputLatch :
    State.reset.port.modeOf 3 = 0b00#2 ∧ ∀ d ∈ [Instr.wrOdr 8#32, .wrBsrr 8#32, .wrBrr 8#32], isDriveWrite d = true := by decide

theorem witness_ConfigureThenDriveSetsThePin : (0b11#2 : BitVec 2) ≠ 0b00#2 ∧ (0b01#2 : BitVec 2) ≠ 0b00#2 := by decide

theorem witness_PortsShareNoState :
    ∃ ports', stepPort [State.reset, { mixed with pending := [.reset] }] ⟨1, by decide⟩ = .next ports' := ⟨_, rfl⟩

/-- A state that meets the three invariants, and a step from it that is an operation (the injection changes `SIG`, V50). -/
theorem witness_step_invariants :
    EventsAccountForLevels (State.reset.withFetchWord 48 0x010200000000) ∧
    ConfigReadsAsLastWritten (State.reset.withFetchWord 48 0x010200000000) ∧
    RunIsLawful (State.reset.withFetchWord 48 0x010200000000) ∧
    lineOf (step (State.reset.withFetchWord 48 0x010200000000)) = some (⟨.ok, [⟨0, true⟩], []⟩, 0x0001#16) := by
  refine ⟨rfl, ⟨by decide, by decide⟩, ?_, by decide⟩
  intro e he
  cases he

/-- A run that is not empty meets the third invariant: a refused read of the lock register under REJECT (V48), and a step follows. -/
theorem witness_StepKeepsTheRunLawful :
    RunIsLawful { rejecting mixed with transcript := [⟨.rdLckr, ⟨.addressingError 0x18#32, [], []⟩⟩], pending := [.reset] } ∧
    lineOf (step { rejecting mixed with transcript := [⟨.rdLckr, ⟨.addressingError 0x18#32, [], []⟩⟩], pending := [.reset] }) =
      some (⟨.ok, [], []⟩, 0x8010#16) := by
  refine ⟨?_, by decide⟩
  intro e he
  rw [List.mem_singleton] at he
  subst he
  exact ⟨rfl, .inr ⟨rfl, rfl⟩⟩

/-- V37: the same answer is not lawful under RAZ_WI. -/
theorem test_lock_failure_unlawful_under_razWi : ¬ ResponseAllowed mixed.config ⟨.addressingError 0x18#32, [], []⟩ .rdLckr := by
  simp [ResponseAllowed, Response.onlyData, mixed, blockAt, State.reset, Config.default]

/-- V54: a silent injection is not lawful on a pin that exists. -/
theorem test_silent_injection_unlawful_in_range : ¬ ResponseAllowed mixed.config ⟨.ok, [], []⟩ (.inject 15 true) := by
  simp [ResponseAllowed]

end Sys2Proof.Tests
end

section
/-! SUPPORT. Stimuli served in the order presented (20_memory.md R40): a run of steps over the stimuli of some operations is those operations
one after another. -/

namespace Sys2Proof.Machine

/-- The decoder undoes `stimulusOf` on every operation of the block. -/
theorem decode_stimulusOf {i : Instr} (h : i.wellFormed = true) : decode (stimulusOf i) = .ok i := by
  cases i with
  | rdUnmapped off => exact Laws.DecodesBack.rdUnmapped off h
  | wrUnmapped off v => exact Laws.DecodesBack.wrUnmapped off v h
  | _ => rfl

/-- The case of `step_cases` in which the head of the list decodes to an operation. -/
theorem step_of_decode {s : State} {x : Stimulus} {rest : List Stimulus} {i : Instr} (hp : s.pending = x :: rest)
    (hd : decode x = .ok i) : step s = exec i { s with pending := rest } := by
  obtain ⟨hn, -⟩ | ⟨y, ys, j, hy, hj, hs⟩ | ⟨y, ys, r, hy, hr, -⟩ := step_cases s
  · simp [hn] at hp
  · obtain ⟨rfl, rfl⟩ := List.cons.inj (hp.symm.trans hy)
    obtain rfl := Except.ok.inj (hd.symm.trans hj)
    exact hs
  · obtain ⟨rfl, rfl⟩ := List.cons.inj (hp.symm.trans hy)
    simp [hd] at hr

theorem core_run_succ_of_step {s t : State} (k : Nat) (h : step s = .next t) : core.run (k + 1) s = core.run k t := by
  simp only [Host.Core.run, show core.step s = .next t from h]

/-- The steps that serve the stimuli of some operations are these operations, run with the stimuli already off the list: no operation reads
the list, so what still waits cannot matter. -/
theorem core_run_map_stimulusOf (is : List Instr) (s : State) (rest : List Stimulus) (hw : ∀ i ∈ is, i.wellFormed = true)
    (hp : s.pending = is.map stimulusOf ++ rest) : core.run is.length s = runOps is { s with pending := rest } := by
  induction is generalizing s with
  | nil =>
    obtain rfl : s.pending = rest := hp
    rfl
  | cons i is ih =>
    have hstep : step s = exec i { s with pending := is.map stimulusOf ++ rest } :=
      step_of_decode hp (decode_stimulusOf (hw i (by simp)))
    rw [exec_eq] at hstep
    rw [List.length_cons, core_run_succ_of_step _ hstep, runOps_cons]
    exact ih _ (fun j hj => hw j (by simp [hj])) rfl

/-- A run of operations ends in a state, takes no stimulus off the list, and adds one line per operation, in order. -/
theorem runOps_adds_lines (is : List Instr) (s : State) :
    ∃ t, runOps is s = .next t ∧ t.pending = s.pending ∧ t.transcript.map (·.op) = s.transcript.map (·.op) ++ is := by
  induction is generalizing s with
  | nil => exact ⟨s, rfl, rfl, by simp⟩
  | cons i is ih =>
    obtain ⟨t, hrun, hpend, hops⟩ := ih (s.answer i (resultOf s.config i s.port) (workOf i s.port))
    exact ⟨t, (runOps_cons i is s).trans hrun, hpend, by simpa using hops⟩

/-- Settles O9, by induction on the operations presented: `core_run_map_stimulusOf` for the steps, `runOps_adds_lines` for the lines. -/
theorem stimuliAreServedInOrder : Obligations.StimuliAreServedInOrder := by
  intro is s rest hw hp
  obtain ⟨t, hrun, hpend, hops⟩ := runOps_adds_lines is { s with pending := rest }
  have hlen : t.transcript.length = s.transcript.length + is.length := by
    simpa using congrArg List.length hops
  exact ⟨core_run_map_stimulusOf is s rest hw hp, t, hrun, hpend, hlen, hops⟩

end Sys2Proof.Machine
end

section
/-! SUPPORT. What a stimulus selects (30_encoding.md R60) and the nibble of a pin as arithmetic (R53). -/

namespace Sys2Proof

/-- An offset whose number is none of the seven is none of the seven words: the map of 20_memory.md R34 on either. -/
theorem not_mem_mappedOffsets {off : Word} (h : off.toNat ∉ [0x00, 0x04, 0x08, 0x0C, 0x10, 0x14, 0x18]) : off ∉ mappedOffsets :=
  fun hm => h (List.mem_map_of_mem (f := BitVec.toNat) hm)

theorem decode_memRead_unmapped {off : Word} (h : off ∉ mappedOffsets) : decode (.memRead off .word) = .ok (.rdUnmapped off) :=
  Machine.decode_stimulusOf (i := .rdUnmapped off) (by simpa [Instr.wellFormed] using h)

theorem decode_memWrite_unmapped {off : Word} (v : Word) (h : off ∉ mappedOffsets) :
    decode (.memWrite off .word v) = .ok (.wrUnmapped off v) :=
  Machine.decode_stimulusOf (i := .wrUnmapped off v) (by simpa [Instr.wellFormed] using h)

theorem rowsFor_mnemonic_unmapped {off : Word} (h : off ∉ mappedOffsets) :
    (rowsFor (busKey 0b000#3 off)).map (·.mnemonic) = ["RD_UNMAPPED"] ∧
    (rowsFor (busKey 0b001#3 off)).map (·.mnemonic) = ["WR_UNMAPPED"] := by
  obtain ⟨hread, hwrite⟩ := rowsFor_unmapped off (by simpa [mappedOffsets] using h)
  exact ⟨by rw [hread]; rfl, by rw [hwrite]; rfl⟩

/-- Settles O1: at each of the seven numbers the offset is that word and the decoder computes;
at every other number it is unmapped. -/
theorem dispatchByWholeOffset : Obligations.DispatchByWholeOffset := by
  refine ⟨rfl, rfl, fun _ _ => rfl, fun off => ?_, fun off v => ?_, fun off h => rowsFor_mnemonic_unmapped (not_mem_mappedOffsets h)⟩
  · split
    case h_8 => exact decode_memRead_unmapped (not_mem_mappedOffsets (by simp_all))
    all_goals
      obtain ⟨-, rfl⟩ := BitVec.toNat_eq_nat.mp ‹off.toNat = _›
      rfl
  · split
    case h_8 => exact decode_memWrite_unmapped v (not_mem_mappedOffsets (by simp_all))
    all_goals
      obtain ⟨-, rfl⟩ := BitVec.toNat_eq_nat.mp ‹off.toNat = _›
      rfl

end Sys2Proof

namespace Sys2Proof.Machine

/-- The mode is the lower pair of the nibble and the configuration the upper one (R53). -/
theorem toNat_pack (m c : BitVec 2) : (pack m c).toNat = 4 * c.toNat + m.toNat := by
  rw [pack, BitVec.toNat_append, ← Nat.shiftLeft_add_eq_or_of_lt m.isLt, Nat.shiftLeft_eq, Nat.mul_comm]

/-- A nibble as a digit of the word in base 16 (R53). -/
theorem toNat_nib (v : Word) (k : Fin 8) : (nib v k).toNat = v.toNat / 2 ^ (4 * k.val) % 16 := by
  rw [nib, BitVec.extractLsb'_toNat, Nat.shiftRight_eq_div_pow]

/-- Settles O6, clause by clause. -/
theorem nibblePacksAndUnpacks : Obligations.NibblePacksAndUnpacks :=
  ⟨fun m c => ⟨unpackMode_pack m c, unpackCnf_pack m c⟩, pack_unpack, toNat_pack, toNat_nib⟩

end Sys2Proof.Machine
end

section
/-! SUPPORT. The configuration registers field by field (40_config_registers.md R70 to R73): the two fields of a nibble as bits of the word,
and the pins of a register as a range of pin numbers. -/

namespace Sys2Proof.Machine

/-! ### The pins of a register -/

theorem highPin_val_sub (k : Fin 8) : (highPin k).val - 8 = k.val := Nat.add_sub_cancel_left 8 k.val

/-- Pins 0 to 7 are the pins of Configuration Low (R52). -/
theorem forall_lowPin {P : Pin → Prop} : (∀ p : Pin, p.val < 8 → P p) ↔ ∀ k, P (lowPin k) :=
  ⟨fun h k => h _ k.isLt, fun h p hp => h ⟨p.val, hp⟩⟩

/-- Pins 8 to 15 are the pins of Configuration High (R52). -/
theorem forall_highPin {P : Pin → Prop} : (∀ p : Pin, 8 ≤ p.val → P p) ↔ ∀ k, P (highPin k) := by
  refine ⟨fun h k => h _ (Nat.le_add_right 8 k.val), fun h p hp => ?_⟩
  obtain ⟨k, rfl⟩ | ⟨k, rfl⟩ := pin_cases p
  · exact absurd k.isLt (Nat.not_lt.2 hp)
  · exact h k

/-! ### The fields of a nibble in the word (R53) -/

/-- A field that lies inside nibble k is a field of the word. -/
theorem extractLsb'_nib (v : Word) (k : Fin 8) {start len : Nat} (h : start + len ≤ 4) :
    (nib v k).extractLsb' start len = v.extractLsb' (4 * k.val + start) len := by
  ext i hi
  have hbit : start + i < 4 := by omega
  simp [nib, hbit, Nat.add_assoc]

theorem unpackMode_nib (v : Word) (k : Fin 8) : unpackMode (nib v k) = v.extractLsb' (4 * k.val) 2 :=
  extractLsb'_nib v k (by decide)

theorem unpackCnf_nib (v : Word) (k : Fin 8) : unpackCnf (nib v k) = v.extractLsb' (4 * k.val + 2) 2 :=
  extractLsb'_nib v k (by decide)

/-- A read returns the entries of its pins at their fields (R70, R72). -/
theorem readConfig_fields (pinAt : Fin 8 → Pin) (q : Port) (k : Fin 8) :
    (readConfig pinAt q).extractLsb' (4 * k.val) 2 = q.modeOf (pinAt k) ∧
    (readConfig pinAt q).extractLsb' (4 * k.val + 2) 2 = q.cnfOf (pinAt k) := by
  rw [← unpackMode_nib, ← unpackCnf_nib, nib_readConfig]
  exact ⟨unpackMode_pack _ _, unpackCnf_pack _ _⟩

/-- A write stores the fields in the entries of its pins (R71, R73). -/
theorem writeConfig_fields {pinAt : Fin 8 → Pin} (inj : Function.Injective pinAt) (v : Word) (q : Port) (k : Fin 8) :
    (writeConfig pinAt v q).modeOf (pinAt k) = v.extractLsb' (4 * k.val) 2 ∧
    (writeConfig pinAt v q).cnfOf (pinAt k) = v.extractLsb' (4 * k.val + 2) 2 := by
  rw [← unpackMode_nib, ← unpackCnf_nib]
  exact writeConfig_at pinAt inj v q k

/-! ### The obligations -/

/-- Settles O11: the fields by `readConfig_fields`, the reset value by `readConfig_default`. -/
theorem readConfigLowReturnsTheTables : Obligations.ReadConfigLowReturnsTheTables := fun s =>
  ⟨readConfig lowPin s.port, exec_of_work rfl rfl rfl rfl,
    forall_lowPin.2 (readConfig_fields lowPin s.port),
    fun h => readConfig_default lowPin s.port (forall_lowPin.1 h)⟩

/-- Settles O12 by the same two lemmas, the pins counted from 8. -/
theorem readConfigHighReturnsTheTables : Obligations.ReadConfigHighReturnsTheTables := by
  intro s
  refine ⟨readConfig highPin s.port, exec_of_work rfl rfl rfl rfl, forall_highPin.2 fun k => ?_,
    fun h => readConfig_default highPin s.port (forall_highPin.1 h)⟩
  rw [highPin_val_sub]
  exact readConfig_fields highPin s.port k

/-- Settles O13: the fields by `writeConfig_fields`; no pin of the other register is written (`writeConfig_other`). -/
theorem writeConfigLowStoresEightPins : Obligations.WriteConfigLowStoresEightPins := fun s v =>
  ⟨writeConfig lowPin v s.port, exec_of_work rfl rfl rfl rfl,
    forall_lowPin.2 (writeConfig_fields lowPin_injective v s.port),
    forall_highPin.2 fun k => writeConfig_other lowPin v s.port _ fun j => (lowPin_ne_highPin j k).symm,
    writeConfig_sig lowPin v s.port⟩

/-- Settles O14 by the same two lemmas, the pins counted from 8. -/
theorem writeConfigHighStoresEightPins : Obligations.WriteConfigHighStoresEightPins := by
  intro s v
  refine ⟨writeConfig highPin v s.port, exec_of_work rfl rfl rfl rfl, forall_highPin.2 fun k => ?_,
    forall_lowPin.2 fun k => writeConfig_other highPin v s.port _ (lowPin_ne_highPin k),
    writeConfig_sig highPin v s.port⟩
  rw [highPin_val_sub]
  exact writeConfig_fields highPin_injective v s.port k

end Sys2Proof.Machine
end

section
/-! SUPPORT. What Input Data and Output Data both read as, bit by bit (41_data_registers.md R81, R83). -/

namespace Sys2Proof.Machine

/-- Bits 15:0 of `zext_32(SIG)` are the levels, whatever the modes are. -/
theorem getLsbD_readLevels (q : Port) (p : Pin) : (readLevels q).getLsbD p.val = q.level p := by
  have hp : p.val < 32 := by omega
  simp [readLevels, Port.level, hp]

/-- Bits 31:16 of `zext_32(SIG)` lie above the vector and are 0. -/
theorem upperHalf_readLevels (q : Port) : (readLevels q).extractLsb' 16 16 = 0#16 := by
  ext i hi
  have habove : q.sig.getLsbD (16 + i) = false := BitVec.getLsbD_of_ge _ _ (Nat.le_add_right 16 i)
  rw [BitVec.getElem_extractLsb', readLevels, BitVec.getLsbD_setWidth, habove, Bool.and_false, BitVec.getElem_zero]

/-- Settles O16: the data is `readLevels`, the lower half by `getLsbD_readLevels`, the upper half by `upperHalf_readLevels`. -/
theorem readInputDataReturnsLevels : Obligations.ReadInputDataReturnsLevels := fun s =>
  ⟨readLevels s.port, exec_of_work rfl rfl rfl rfl, getLsbD_readLevels s.port, upperHalf_readLevels s.port⟩

/-- Settles O17: both reads answer `readLevels`, so what O16 says of Input Data holds of Output Data. -/
theorem readOutputDataEqualsInputData : Obligations.ReadOutputDataEqualsInputData := fun s =>
  ⟨readLevels s.port, exec_of_work rfl rfl rfl rfl, exec_of_work rfl rfl rfl rfl, getLsbD_readLevels s.port,
    upperHalf_readLevels s.port⟩

end Sys2Proof.Machine
end

section
/-! SUPPORT. The write-only registers read as 0 (42_bit_set_reset.md R92, R95). -/

namespace Sys2Proof.Machine

/-- Settles O22: `resultOf` answers both reads with the constant 0 and `workOf` starts from the port and does nothing to it. -/
theorem writeOnlyRegistersReadZero : Obligations.WriteOnlyRegistersReadZero := fun _ =>
  ⟨exec_of_work rfl rfl rfl rfl, exec_of_work rfl rfl rfl rfl⟩

end Sys2Proof.Machine
end

section
/-! SUPPORT. The direction test of an injection on an Output pin (44_pin_arbiter.md R111, R113). -/

namespace Sys2Proof.Machine

/-- The index of a pin passes the range test; on an Output pin the direction test then leaves the warning alone. -/
theorem injectLevel_of_output {w : Work} {p : Pin} (l : Level) (h : w.port.isInput p = false) :
    injectLevel (p.val : Int) l w = w.emitWarn p := by
  have hp : pinOfIndex (p.val : Int) = some p := (pinOfIndex_eq_some_iff _ p).2 rfl
  simp [injectLevel, hp, h]

/-- Settles O30: the work of the injection is the start with one warning (`injectLevel_of_output`). -/
theorem injectionOnOutputIsRejected : Obligations.InjectionOnOutputIsRejected := by
  intro s p l hmode
  have hwork : workOf (.inject (p.val : Int) l) s.port = (Work.start s.port).emitWarn p :=
    injectLevel_of_output l (Bool.eq_false_iff.2 (mt (Port.isInput_iff s.port p).1 hmode))
  exact exec_of_work (congrArg Work.port hwork) rfl (congrArg Work.events hwork) (congrArg Work.diagnostics hwork)

end Sys2Proof.Machine
end

section
/-! SUPPORT. Decoder and encoder undo each other, and the decoder agrees with the opcode table (30_encoding.md R50, R58, R60). -/

namespace Sys2Proof

/-- Settles O2: the number stands for the operation's own stimulus, and the decoder undoes that. -/
theorem decodeOfEncodeIsTheOperation : Obligations.DecodeOfEncodeIsTheOperation := by
  intro i hwf
  rw [decodeWord, stimulusOfWord_encode]
  exact Machine.decode_stimulusOf hwf

theorem decodeRead_unmapped {off : Word} (h : off ∉ mappedOffsets) : decodeRead off = .rdUnmapped off :=
  Except.ok.inj (decode_memRead_unmapped h)

theorem decodeWrite_unmapped {off : Word} (v : Word) (h : off ∉ mappedOffsets) : decodeWrite off v = .wrUnmapped off v :=
  Except.ok.inj (decode_memWrite_unmapped v h)

/-- What holds at the seven offsets and at every other one holds at every offset (R51). -/
theorem offset_cases {P : Word → Prop} (crl : P 0x00#32) (crh : P 0x04#32) (idr : P 0x08#32) (odr : P 0x0C#32)
    (bsrr : P 0x10#32) (brr : P 0x14#32) (lckr : P 0x18#32) (unmapped : ∀ off, off ∉ mappedOffsets → P off) (off : Word) :
    P off := by
  by_cases hm : off ∈ mappedOffsets
  · simp only [mappedOffsets, List.mem_cons, List.not_mem_nil, or_false] at hm
    rcases hm with rfl | rfl | rfl | rfl | rfl | rfl | rfl <;> assumption
  · exact unmapped off hm

/-- A read selects an operation whose own stimulus is that read. -/
theorem decodeRead_sound (off : Word) :
    (decodeRead off).wellFormed = true ∧ stimulusOf (decodeRead off) = .memRead off .word := by
  induction off using offset_cases
  case unmapped off h => simp [decodeRead_unmapped h, Instr.wellFormed, stimulusOf, h]
  all_goals exact ⟨rfl, rfl⟩

/-- A write selects an operation whose own stimulus is that write. -/
theorem decodeWrite_sound (off v : Word) :
    (decodeWrite off v).wellFormed = true ∧ stimulusOf (decodeWrite off v) = .memWrite off .word v := by
  induction off using offset_cases
  case unmapped off h => simp [decodeWrite_unmapped v h, Instr.wellFormed, stimulusOf, h]
  all_goals exact ⟨rfl, rfl⟩

/-- Settles O3, by the forms of a stimulus; the two bus forms by `decodeRead_sound` and `decodeWrite_sound`. -/
theorem encodeOfDecodeIsTheStimulus : Obligations.EncodeOfDecodeIsTheStimulus := by
  intro x i h
  cases x with
  | memRead off size =>
    cases size with
    | byte => cases h
    | halfword => cases h
    | word => cases h; exact decodeRead_sound off
  | memWrite off size v =>
    cases size with
    | byte => cases h
    | halfword => cases h
    | word => cases h; exact decodeWrite_sound off v
  | inject idx level => cases h; exact ⟨rfl, rfl⟩
  | reset => cases h; exact ⟨rfl, rfl⟩
  | powerOn => cases h; exact ⟨rfl, rfl⟩
  | frameworkReset => cases h

/-! ### The opcode table -/

/-- The row selected for a bus read is the row of the operation decoded. -/
theorem rowsFor_read (off : Word) : (rowsFor (busKey 0#3 off)).map (·.mnemonic) = [(decodeRead off).mnemonic] := by
  induction off using offset_cases
  case unmapped off h => rw [decodeRead_unmapped h]; exact (rowsFor_mnemonic_unmapped h).1
  all_goals rfl

/-- The row selected for a bus write is the row of the operation decoded. -/
theorem rowsFor_write (off v : Word) : (rowsFor (busKey 1#3 off)).map (·.mnemonic) = [(decodeWrite off v).mnemonic] := by
  induction off using offset_cases
  case unmapped off h => rw [decodeWrite_unmapped v h]; exact (rowsFor_mnemonic_unmapped h).2
  all_goals rfl

/-- Off the bus (`port` not 0b00) the upper bits alone select the row. -/
theorem rowsFor_off_bus (off : Word) :
    (rowsFor (busKey 2#3 off)).map (·.mnemonic) = ["INJECT"] ∧ (rowsFor (busKey 3#3 off)).map (·.mnemonic) = ["INJECT"] ∧
    (rowsFor (busKey 4#3 off)).map (·.mnemonic) = ["RESET"] ∧ (rowsFor (busKey 5#3 off)).map (·.mnemonic) = ["RESET"] ∧
    (rowsFor (busKey 6#3 off)).map (·.mnemonic) = ["POR"] ∧ (rowsFor (busKey 7#3 off)).map (·.mnemonic) = ["POR"] := by
  simp [rowsFor, exactRows_parts, matchesKey_parts]

theorem stimulusOfKey_inject {h : BitVec 3} (off : Word) (rest : Nat) (hport : h.extractLsb' 1 2 = 0b01#2) :
    stimulusOfKey (busKey h off) rest = .inject (indexOfNat (rest / 2)) (rest % 2 == 1) := by
  simp [stimulusOfKey, busKey_port, hport]

theorem stimulusOfKey_reset {h : BitVec 3} (off : Word) (rest : Nat) (hport : h.extractLsb' 1 2 = 0b10#2) :
    stimulusOfKey (busKey h off) rest = .reset := by
  simp [stimulusOfKey, busKey_port, hport]

theorem stimulusOfKey_powerOn {h : BitVec 3} (off : Word) (rest : Nat) (hport : h.extractLsb' 1 2 = 0b11#2) :
    stimulusOfKey (busKey h off) rest = .powerOn := by
  simp [stimulusOfKey, busKey_port, hport]

theorem bitVec3_cases (h : BitVec 3) : h = 0 ∨ h = 1 ∨ h = 2 ∨ h = 3 ∨ h = 4 ∨ h = 5 ∨ h = 6 ∨ h = 7 := by
  revert h; decide

/-- The decoder and the table on a key taken apart (R50): its three upper bits say on which port the stimulus comes. -/
theorem decode_key_parts (h : BitVec 3) (off : Word) (rest : Nat) :
    ∃ i, decode (stimulusOfKey (busKey h off) rest) = .ok i ∧ (rowsFor (busKey h off)).map (·.mnemonic) = [i.mnemonic] := by
  obtain ⟨hinj, hinj', hreset, hreset', hpor, hpor'⟩ := rowsFor_off_bus off
  rcases bitVec3_cases h with rfl | rfl | rfl | rfl | rfl | rfl | rfl | rfl
  · exact ⟨decodeRead off, congrArg decode (stimulusOfKey_read off rest), rowsFor_read off⟩
  · exact ⟨decodeWrite off _, congrArg decode (stimulusOfKey_write off rest), rowsFor_write off _⟩
  · exact ⟨.inject _ _, congrArg decode (stimulusOfKey_inject off rest rfl), hinj⟩
  · exact ⟨.inject _ _, congrArg decode (stimulusOfKey_inject off rest rfl), hinj'⟩
  · exact ⟨.reset, congrArg decode (stimulusOfKey_reset off rest rfl), hreset⟩
  · exact ⟨.reset, congrArg decode (stimulusOfKey_reset off rest rfl), hreset'⟩
  · exact ⟨.por, congrArg decode (stimulusOfKey_powerOn off rest rfl), hpor⟩
  · exact ⟨.por, congrArg decode (stimulusOfKey_powerOn off rest rfl), hpor'⟩

/-- Settles O4: `decode_key_parts` on the parts of the key. -/
theorem decoderAgreesWithOpcodeTable : Obligations.DecoderAgreesWithOpcodeTable := by
  intro key rest
  rw [busKey_eta key]
  obtain ⟨i, hdec, hrows⟩ := decode_key_parts (key.extractLsb' 32 3) (key.extractLsb' 0 32) rest
  obtain ⟨row, hrow, hname⟩ := List.map_eq_singleton_iff.1 hrows
  exact ⟨i, row, hdec, hrow, hname⟩

/-- Settles O5: nine closed facts. -/
theorem writtenWordsDecode : Obligations.WrittenWordsDecode := by
  unfold Obligations.WrittenWordsDecode
  decide

end Sys2Proof
end

section
/-! SUPPORT. The step (20_memory.md R35, R39, R40, R47), and what it keeps: an invariant is proved by one goal about operations. -/

namespace Sys2Proof.Machine

/-- The case of `step_cases` in which the head of the list is no stimulus of the block. -/
theorem step_of_reject {s : State} {x : Stimulus} {rest : List Stimulus} {r : Reject} (hp : s.pending = x :: rest)
    (hd : decode x = .error r) : step s = .refused (refusalOf r) := by
  simp [step, takeStimulus, hp, hd]

/-- Settles O7. -/
theorem stepRunsTheDecodedOperation : Obligations.StepRunsTheDecodedOperation :=
  fun _ _ _ _ => step_of_decode

/-- Settles O8: an empty list by the definition of `step`, the three refusals by `step_of_reject` on what the decoder rejects. -/
theorem stepRefusesWhatIsNoStimulus : Obligations.StepRefusesWhatIsNoStimulus := by
  intro s rest
  refine ⟨fun hp => by simp [step, takeStimulus, hp], fun hp => step_of_reject hp rfl, fun off size hsize hp => ?_,
    fun off v size hsize hp => ?_⟩
  · cases size with
    | byte => exact step_of_reject hp rfl
    | halfword => exact step_of_reject hp rfl
    | word => exact absurd rfl hsize
  · cases size with
    | byte => exact step_of_reject hp rfl
    | halfword => exact step_of_reject hp rfl
    | word => exact absurd rfl hsize

/-- What every well-formed operation keeps, and taking a stimulus off the list keeps, every step keeps. -/
theorem step_keeps {P : State → Prop} (hpending : ∀ s rest, P s → P { s with pending := rest })
    (hop : ∀ (i : Instr) (s : State), i.wellFormed = true → P s → P (s.answer i (resultOf s.config i s.port) (workOf i s.port)))
    (s t : State) (hs : P s) (h : step s = .next t) : P t := by
  obtain ⟨-, he⟩ | ⟨x, rest, i, -, hd, he⟩ | ⟨x, rest, r, -, -, he⟩ := step_cases s
  · rw [he] at h
    injection h with h
    exact h ▸ hs
  · rw [he] at h
    obtain ⟨hwf, -⟩ := encodeOfDecodeIsTheStimulus x i hd
    rw [exec_next h]
    exact hop i _ hwf (hpending s rest hs)
  · rw [he] at h
    cases h

/-! ### The events account for the levels (44_pin_arbiter.md R115) -/

/-- The run replayed, one line further. -/
theorem levelsOfRun_concat (es : List Entry) (e : Entry) :
    levelsOfRun (es ++ [e]) = if e.op = .por then 0#16 else replayEvents e.response.events (levelsOfRun es) := by
  simp [levelsOfRun]

/-- An operation that emits nothing accounts for the vector if it leaves it as it is. -/
theorem Work.start_accountsFor_of_sig {q r : Port} (h : r.sig = q.sig) : (Work.start r).accountsFor q.sig := h.symm

/-- The events of every operation but POR, replayed on the vector it found, give the vector it leaves. -/
theorem workOf_accountsFor (i : Instr) (q : Port) (h : i ≠ .por) : (workOf i q).accountsFor q.sig := by
  have hstart := Work.start_accountsFor q
  cases i with
  | wrOdr v => rw [workOf, outputPhase]; exact driveAll_accountsFor _ hstart
  | wrBsrr v => rw [workOf, resetPhase, setPhase]; exact driveAll_accountsFor _ (driveAll_accountsFor _ hstart)
  | wrBrr v => rw [workOf, resetPhase]; exact driveAll_accountsFor _ hstart
  | inject idx l => exact injectLevel_accountsFor idx l hstart
  | wrCrl v => exact Work.start_accountsFor_of_sig (writeConfig_sig lowPin v q)
  | wrCrh v => exact Work.start_accountsFor_of_sig (writeConfig_sig highPin v q)
  | reset => exact Work.start_accountsFor_of_sig (resetTables_sig q)
  | por => exact absurd rfl h
  | _ => exact hstart

/-- Settles O52: POR restarts the replay at the zeros it leaves (`powerOn_sig`), every other operation continues it
(`workOf_accountsFor`). -/
theorem stepKeepsEventsAccountingForLevels : Obligations.StepKeepsEventsAccountingForLevels := by
  refine step_keeps (fun _ _ h => h) fun i s _ hs => ?_
  unfold EventsAccountForLevels at hs ⊢
  rw [State.answer_transcript, levelsOfRun_concat, hs, State.answer_port]
  split
  · next hpor =>
    obtain rfl : i = .por := hpor
    exact (powerOn_sig s.port).symm
  · next hpor => exact workOf_accountsFor i s.port hpor

/-! ### The configuration registers read as last written (10_state.md R21 (d); 40_config_registers.md R75) -/

/-- The registers do not share a pin, so writing one leaves what the other reads. -/
theorem readConfig_writeConfig_other {pinAt other : Fin 8 → Pin} (h : ∀ j k, pinAt j ≠ other k) (v : Word) (q : Port) :
    readConfig pinAt (writeConfig other v q) = readConfig pinAt q :=
  readConfig_congr pinAt fun j => writeConfig_other other v q (pinAt j) (h j)

theorem readConfig_workOf_of_keeps (pinAt : Fin 8 → Pin) {i : Instr} (q : Port) (h : writesTables i = false) :
    readConfig pinAt (workOf i q).port = readConfig pinAt q := by
  obtain ⟨hmode, hcnf⟩ := workOf_tables i q h
  exact readConfig_congr pinAt fun k => by simp [Port.modeOf, Port.cnfOf, hmode, hcnf]

/-- Both resets leave 0x44444444 in both registers (R140, R141). -/
theorem readConfig_resets (pinAt : Fin 8 → Pin) (q : Port) :
    readConfig pinAt q.resetTables = 0x44444444#32 ∧ readConfig pinAt q.powerOn = 0x44444444#32 :=
  ⟨readConfig_default pinAt _ fun k => resetTables_entries q (pinAt k),
    readConfig_default pinAt _ fun k => resetTables_entries q (pinAt k)⟩

/-- What an operation does to Configuration Low is what `lastLow` says it does to the last value written. -/
theorem readConfig_low_workOf (i : Instr) (q : Port) :
    readConfig lowPin (workOf i q).port = lastLow (readConfig lowPin q) i := by
  cases i with
  | wrCrl v => exact readConfig_writeConfig lowPin lowPin_injective v q
  | wrCrh v => exact readConfig_writeConfig_other lowPin_ne_highPin v q
  | reset => exact (readConfig_resets lowPin q).1
  | por => exact (readConfig_resets lowPin q).2
  | _ => exact readConfig_workOf_of_keeps lowPin q rfl

/-- The same for Configuration High. -/
theorem readConfig_high_workOf (i : Instr) (q : Port) :
    readConfig highPin (workOf i q).port = lastHigh (readConfig highPin q) i := by
  cases i with
  | wrCrh v => exact readConfig_writeConfig highPin highPin_injective v q
  | wrCrl v => exact readConfig_writeConfig_other (fun j k => (lowPin_ne_highPin k j).symm) v q
  | reset => exact (readConfig_resets highPin q).1
  | por => exact (readConfig_resets highPin q).2
  | _ => exact readConfig_workOf_of_keeps highPin q rfl

/-- Settles O53: the last value written and the value read change alike (`readConfig_low_workOf`, `readConfig_high_workOf`). -/
theorem stepKeepsConfigAsLastWritten : Obligations.StepKeepsConfigAsLastWritten := by
  refine step_keeps (fun _ _ h => h) fun i s _ ⟨hlow, hhigh⟩ => ⟨?_, ?_⟩
  · rw [State.answer_port, readConfig_low_workOf, hlow, State.answer_transcript, configLowOfRun, configLowOfRun, List.foldl_append]
    rfl
  · rw [State.answer_port, readConfig_high_workOf, hhigh, State.answer_transcript, configHighOfRun, configHighOfRun,
      List.foldl_append]
    rfl

/-- A register that `wr` writes, `rd` reads and the operations between keep reads as written. -/
theorem roundTrip_of_keeps {f : Port → Word} {P : Instr → Prop} {wr rd : Instr} {v : Word}
    (hwr : ∀ q, f (workOf wr q).port = v) (hkeep : ∀ i q, P i → f (workOf i q).port = f q)
    (hrd : ∀ c q, resultOf c rd q = .data (f q)) (hrdw : ∀ q, workOf rd q = Work.start q)
    (s : State) (is : List Instr) (h : ∀ i ∈ is, P i) :
    ∃ t, runOps (wr :: is ++ [rd]) s = .next t ∧ t.transcript.getLast? = some ⟨rd, ⟨.data v, [], []⟩⟩ := by
  obtain ⟨u, hrun, hu⟩ := runOps_keeps f P hkeep is (s.answer wr (resultOf s.config wr s.port) (workOf wr s.port)) h
  rw [State.answer_port, hwr] at hu
  refine ⟨_, by rw [List.cons_append, runOps_cons, runOps_append, hrun]; exact runOps_cons rd [] u, ?_⟩
  rw [State.answer_transcript, List.getLast?_concat, hrd, hrdw, hu]
  rfl

/-- Settles O15: between the write and the read every operation keeps the register, the other register's write included. -/
theorem configRoundTripOverAnyRun : Obligations.ConfigRoundTripOverAnyRun := by
  intro s v is
  constructor
  · refine roundTrip_of_keeps (f := readConfig lowPin) (readConfig_low_workOf (.wrCrl v)) (fun i q hi => ?_) (fun _ _ => rfl)
      (fun _ => rfl) s is
    rcases hi with hi | ⟨w, rfl⟩
    · exact readConfig_workOf_of_keeps lowPin q hi
    · exact readConfig_low_workOf (.wrCrh w) q
  · refine roundTrip_of_keeps (f := readConfig highPin) (readConfig_high_workOf (.wrCrh v)) (fun i q hi => ?_) (fun _ _ => rfl)
      (fun _ => rfl) s is
    rcases hi with hi | ⟨w, rfl⟩
    · exact readConfig_workOf_of_keeps highPin q hi
    · exact readConfig_high_workOf (.wrCrl w) q

end Sys2Proof.Machine
end

section
/-! SUPPORT. The three drive writes as one: the level asked of each pin in the end, the events, and what is left alone
(41_data_registers.md R84; 42_bit_set_reset.md R91, R94). -/

namespace Sys2Proof.Machine

/-- The level that a drive write asks of a pin in the end, if it asks for one: reset wins over set (R84, R91, R94). -/
def askedLevel : Instr → Pin → Option Level
  | .wrOdr v, p => some (v.getLsbD p.val)
  | .wrBsrr v, p => if v.getLsbD (16 + p.val) then some false else if v.getLsbD p.val then some true else none
  | .wrBrr v, p => if v.getLsbD p.val then some false else none
  | _, _ => none

/-- The events of a drive write, given which pins are Output pins (R84, R90). -/
def driveEvents : Instr → (Pin → Bool) → List ConnSet
  | .wrOdr v, out => phaseEvents (fun _ => true) out fun p => v.getLsbD p.val
  | .wrBsrr v, out =>
    phaseEvents (fun p => v.getLsbD p.val) out (fun _ => true) ++ phaseEvents (fun p => v.getLsbD (16 + p.val)) out fun _ => false
  | .wrBrr v, out => phaseEvents (fun p => v.getLsbD p.val) out fun _ => false
  | _, _ => []

theorem isDriveWrite_iff (i : Instr) :
    isDriveWrite i = true ↔ (∃ v, i = .wrOdr v) ∨ (∃ v, i = .wrBsrr v) ∨ ∃ v, i = .wrBrr v := by
  cases i <;> simp [isDriveWrite]

/-- All that a drive write can do: an Output pin takes the level asked of it, and nothing else changes. -/
theorem driveWrite_spec {i : Instr} (h : isDriveWrite i = true) (q : Port) :
    (workOf i q).port.mode = q.mode ∧ (workOf i q).port.cnf = q.cnf ∧ (workOf i q).diagnostics = [] ∧
    (∀ r, (workOf i q).port.level r = if q.isOutput r then (askedLevel i r).getD (q.level r) else q.level r) ∧
    (workOf i q).events = driveEvents i q.isOutput := by
  rcases (isDriveWrite_iff i).1 h with ⟨v, rfl⟩ | ⟨v, rfl⟩ | ⟨v, rfl⟩
  · obtain ⟨hmode, hcnf, hdiag, hlevel, hevents⟩ := workOf_wrOdr v q _ rfl
    exact ⟨hmode, hcnf, hdiag, hlevel, by simpa [driveEvents, phaseEvents] using hevents⟩
  · obtain ⟨hmode, hcnf, hdiag, hlevel, hevents⟩ := workOf_wrBsrr v q _ rfl
    refine ⟨hmode, hcnf, hdiag, fun r => ?_, hevents⟩
    rw [hlevel, askedLevel]
    cases q.isOutput r <;> cases v.getLsbD (16 + r.val) <;> cases v.getLsbD r.val <;> rfl
  · obtain ⟨hmode, hcnf, hdiag, hlevel, hevents⟩ := workOf_wrBrr v q _ rfl
    refine ⟨hmode, hcnf, hdiag, fun r => ?_, hevents⟩
    rw [hlevel, askedLevel]
    cases q.isOutput r <;> cases v.getLsbD r.val <;> rfl

theorem resultOf_driveWrite {i : Instr} (h : isDriveWrite i = true) (c : Config) (q : Port) : resultOf c i q = .ok := by
  rcases (isDriveWrite_iff i).1 h with ⟨v, rfl⟩ | ⟨v, rfl⟩ | ⟨v, rfl⟩ <;> rfl

/-- The answer of a drive write: only the vector of the block changes. -/
theorem exec_driveWrite {i : Instr} (h : isDriveWrite i = true) (s : State) :
    exec i s = .next { s with
      port := { s.port with sig := (workOf i s.port).port.sig }
      transcript := s.transcript ++ [⟨i, ⟨.ok, driveEvents i s.port.isOutput, []⟩⟩] } := by
  obtain ⟨hmode, hcnf, hdiag, -, hevents⟩ := driveWrite_spec h s.port
  exact exec_of_work (Port.eq_with_sig hmode hcnf) (resultOf_driveWrite h _ _) hevents hdiag

theorem driveWrite_isInput {i : Instr} (h : isDriveWrite i = true) (q : Port) (p : Pin) :
    (workOf i q).port.isInput p = q.isInput p :=
  Port.isInput_congr (driveWrite_spec h q).1 p

/-- A drive write is dropped on an Input pin. -/
theorem driveWrite_level_of_input {i : Instr} (h : isDriveWrite i = true) {q : Port} {p : Pin} (hp : q.isInput p = true) :
    (workOf i q).port.level p = q.level p := by
  obtain ⟨-, -, -, hlevel, -⟩ := driveWrite_spec h q
  rw [hlevel, Port.isOutput, hp]
  rfl

/-- The Output pins are all the pins that are not Input pins, in the words of the statements. -/
theorem Port.isOutput_of_mode {q : Port} {p : Pin} (h : q.modeOf p ≠ 0b00#2) : q.isOutput p = true :=
  (q.isOutput_iff p).2 h

theorem Port.isInput_of_mode {q : Port} {p : Pin} (h : q.modeOf p = 0b00#2) : q.isInput p = true :=
  (q.isInput_iff p).2 h

theorem Port.isInput_eq_false_of_mode {q : Port} {p : Pin} (h : q.modeOf p ≠ 0b00#2) : q.isInput p = false :=
  Bool.eq_false_iff.2 (mt (q.isInput_iff p).1 h)

/-! ### The obligations on levels and events -/

/-- Settles O19: levels and events by `workOf_wrOdr`, the closed form bit by bit. -/
theorem writeOutputDataDrivesOutputPins : Obligations.WriteOutputDataDrivesOutputPins := by
  intro s v
  obtain ⟨-, -, -, hlevel, -⟩ := workOf_wrOdr v s.port _ rfl
  refine ⟨(workOf (.wrOdr v) s.port).port.sig, ?_, fun p => ?_, pinMask_ext fun p => ?_⟩
  · rw [exec_driveWrite rfl, driveEvents, phaseEvents, allPins_eq_finRange]
    rfl
  · refine (hlevel p).trans ?_
    simp only [Port.isOutput_iff, modeInput]
  · refine (hlevel p).trans ?_
    rw [BitVec.getLsbD_or, BitVec.getLsbD_and, BitVec.getLsbD_and, BitVec.getLsbD_not, getLsbD_outMask, ← lowHalf, getLsbD_lowHalf]
    cases s.port.isOutput p <;> simp [Port.level]

/-- Settles O20: levels and events by `workOf_wrBsrr`, the closed form bit by bit. -/
theorem writeBitSetResetSetsThenResets : Obligations.WriteBitSetResetSetsThenResets := by
  intro s v
  obtain ⟨-, -, -, hlevel, -⟩ := workOf_wrBsrr v s.port _ rfl
  refine ⟨(workOf (.wrBsrr v) s.port).port.sig, ?_, fun p => ?_, pinMask_ext fun p => ?_⟩
  · rw [exec_driveWrite rfl, driveEvents, phaseEvents, phaseEvents, allPins_eq_finRange]
    rfl
  · refine (hlevel p).trans ?_
    simp only [Bool.and_eq_true, Port.isOutput_iff, modeInput, and_comm]
  · refine (hlevel p).trans ?_
    rw [BitVec.getLsbD_and, BitVec.getLsbD_or, BitVec.getLsbD_and, BitVec.getLsbD_not, BitVec.getLsbD_and, getLsbD_outMask,
      ← lowHalf, ← highHalf, getLsbD_lowHalf, getLsbD_highHalf]
    cases s.port.isOutput p <;> cases v.getLsbD (16 + p.val) <;> cases v.getLsbD p.val <;> simp [Port.level]

/-- Settles O21: levels and events by `workOf_wrBrr`, the closed form bit by bit. -/
theorem writeBitResetDrivesLow : Obligations.WriteBitResetDrivesLow := by
  intro s v
  obtain ⟨-, -, -, hlevel, -⟩ := workOf_wrBrr v s.port _ rfl
  refine ⟨(workOf (.wrBrr v) s.port).port.sig, ?_, fun p => ?_, pinMask_ext fun p => ?_⟩
  · rw [exec_driveWrite rfl, driveEvents, phaseEvents, allPins_eq_finRange]
    rfl
  · refine (hlevel p).trans ?_
    simp only [Bool.and_eq_true, Port.isOutput_iff, modeInput, and_comm]
  · refine (hlevel p).trans ?_
    rw [BitVec.getLsbD_and, BitVec.getLsbD_not, BitVec.getLsbD_and, getLsbD_outMask, ← lowHalf, getLsbD_lowHalf]
    cases s.port.isOutput p <;> cases v.getLsbD p.val <;> simp [Port.level]

/-! ### The lane of a pin (R86) -/

theorem phaseEvents_filter_pin (p : Pin) (asked out : Pin → Bool) (level : Pin → Level) :
    (phaseEvents asked out level).filter (fun e => e.pin == p) = if asked p && out p then [⟨p, level p⟩] else [] :=
  phase_filter_pin p (fun p => asked p && out p) level

/-- Settles O44: of the levels and of the events that name p, `driveWrite_spec` and `phaseEvents_filter_pin` read p's lane only. -/
theorem driveLanesAreIndependent : Obligations.DriveLanesAreIndependent := by
  intro s s' v v' p i i' hmode hlevel hlow hhigh hform
  have hout : s.port.isOutput p = s'.port.isOutput p := by rw [Port.isOutput_eq, Port.isOutput_eq, hmode]
  have hdrive : isDriveWrite i = true ∧ isDriveWrite i' = true := by
    rcases hform with ⟨rfl, rfl⟩ | ⟨rfl, rfl⟩ | ⟨rfl, rfl⟩ <;> exact ⟨rfl, rfl⟩
  have hasked : askedLevel i p = askedLevel i' p := by
    rcases hform with ⟨rfl, rfl⟩ | ⟨rfl, rfl⟩ | ⟨rfl, rfl⟩ <;> simp only [askedLevel, hlow, hhigh]
  have hevents : (driveEvents i s.port.isOutput).filter (fun e => e.pin == p) =
      (driveEvents i' s'.port.isOutput).filter (fun e => e.pin == p) := by
    rcases hform with ⟨rfl, rfl⟩ | ⟨rfl, rfl⟩ | ⟨rfl, rfl⟩ <;>
      simp only [driveEvents, List.filter_append, phaseEvents_filter_pin, hlow, hhigh, hout]
  obtain ⟨-, -, -, hsig, -⟩ := driveWrite_spec hdrive.1 s.port
  obtain ⟨-, -, -, hsig', -⟩ := driveWrite_spec hdrive.2 s'.port
  refine ⟨_, _, _, _, exec_driveWrite hdrive.1 s, exec_driveWrite hdrive.2 s', ?_, hevents⟩
  exact (hsig p).trans (by rw [hasked, hlevel, hout]; exact (hsig' p).symm)

/-! ### Equivalences between the drive writes (42_bit_set_reset.md R93) -/

/-- The loop adds its emissions to those before it, and reads the port only. -/
theorem driveAll_eq_start (want : Pin → Option Level) (w : Work) (hw : w.diagnostics = []) :
    driveAll want w = { driveAll want (Work.start w.port) with events := w.events ++ (driveAll want (Work.start w.port)).events } := by
  obtain ⟨hmode, hcnf, hdiag, hlevel, hevents⟩ := driveAll_spec want w
  obtain ⟨kmode, kcnf, kdiag, klevel, kevents⟩ := driveAll_spec want (Work.start w.port)
  refine Work.ext_of (hmode.trans kmode.symm) (hcnf.trans kcnf.symm) (fun p => (hlevel p).trans (klevel p).symm) ?_ ?_
  · rw [hevents, kevents]
    rfl
  · rw [hdiag, hw]
    exact kdiag.symm

theorem driveAll_none (w : Work) : driveAll (fun _ => none) w = w := rfl

@[simp] theorem setPhase_zero (w : Work) : setPhase 0#16 w = w := by
  simpa [setPhase] using driveAll_none w

@[simp] theorem resetPhase_zero (w : Work) : resetPhase 0#16 w = w := by
  simpa [resetPhase] using driveAll_none w

@[simp] theorem lowHalf_append (hi lo : BitVec 16) : lowHalf (hi ++ lo) = lo := BitVec.extractLsb'_append_eq_right

@[simp] theorem highHalf_append (hi lo : BitVec 16) : highHalf (hi ++ lo) = hi := BitVec.extractLsb'_append_eq_left

theorem workOf_wrBsrr_append (br bs : BitVec 16) (q : Port) :
    workOf (.wrBsrr (br ++ bs)) q = resetPhase br (setPhase bs (Work.start q)) := by
  simp only [workOf, lowHalf_append, highHalf_append]

theorem workOf_wrBrr_append (hi m : BitVec 16) (q : Port) : workOf (.wrBrr (hi ++ m)) q = resetPhase m (Work.start q) := by
  simp only [workOf, lowHalf_append]

/-- The two halves of a Bit Set/Reset write, one after the other (R93 (b)). -/
theorem workOf_wrBsrr_halves (br bs : BitVec 16) (q : Port) :
    workOf (.wrBsrr (br ++ bs)) q =
      { workOf (.wrBrr (0#16 ++ br)) (workOf (.wrBsrr (0#16 ++ bs)) q).port with
        events := (workOf (.wrBsrr (0#16 ++ bs)) q).events ++
          (workOf (.wrBrr (0#16 ++ br)) (workOf (.wrBsrr (0#16 ++ bs)) q).port).events } := by
  obtain ⟨-, -, hdiag, -, -⟩ := setPhase_spec bs (Work.start q) _ rfl
  simp only [workOf_wrBsrr_append, workOf_wrBrr_append, resetPhase_zero]
  exact driveAll_eq_start _ _ hdiag

/-- Two operations after one another, each from the port the one before it left. -/
theorem runOps_pair (i j : Instr) (s : State) :
    runOps [i, j] s = .next { s with
      port := (workOf j (workOf i s.port).port).port
      transcript := s.transcript ++ [
        ⟨i, ⟨resultOf s.config i s.port, (workOf i s.port).events, (workOf i s.port).diagnostics⟩⟩,
        ⟨j, ⟨resultOf s.config j (workOf i s.port).port, (workOf j (workOf i s.port).port).events,
          (workOf j (workOf i s.port).port).diagnostics⟩⟩] } := by
  rw [runOps_cons, runOps_cons]
  simp [runOps, State.answer]

/-- Settles O23: (a) the set half of `m << 16` asks nothing of any pin; (b) by `workOf_wrBsrr_halves`. -/
theorem bitResetIsTheResetHalf : Obligations.BitResetIsTheResetHalf := by
  refine ⟨fun s m => ?_, fun s bs br => ?_⟩
  · have hwork : workOf (.wrBsrr (m ++ 0#16)) s.port = workOf (.wrBrr (0#16 ++ m)) s.port := by
      rw [workOf_wrBsrr_append, workOf_wrBrr_append, setPhase_zero]
    obtain ⟨-, -, hdiag, -, -⟩ := driveWrite_spec (i := .wrBrr (0#16 ++ m)) rfl s.port
    exact ⟨_, _, exec_of_work (congrArg Work.port hwork) rfl (congrArg Work.events hwork) (by rw [hwork, hdiag]),
      exec_of_work rfl rfl rfl hdiag⟩
  · have hwork := workOf_wrBsrr_halves br bs s.port
    obtain ⟨-, -, hdiag, -, -⟩ := driveWrite_spec (i := .wrBsrr (br ++ bs)) rfl s.port
    obtain ⟨-, -, hset, -, -⟩ := driveWrite_spec (i := .wrBsrr (0#16 ++ bs)) rfl s.port
    obtain ⟨-, -, hreset, -, -⟩ := driveWrite_spec (i := .wrBrr (0#16 ++ br)) rfl (workOf (.wrBsrr (0#16 ++ bs)) s.port).port
    refine ⟨_, _, _, exec_of_work (congrArg Work.port hwork) rfl (congrArg Work.events hwork) hdiag, ?_⟩
    rw [runOps_pair, hset, hreset]
    rfl

/-- Only the levels asked of the named pins show in a phase. -/
theorem phaseEvents_congr {asked : Pin → Bool} (out : Pin → Bool) {level level' : Pin → Level}
    (h : ∀ p, asked p = true → level p = level' p) : phaseEvents asked out level = phaseEvents asked out level' := by
  refine List.map_congr_left fun p hp => ?_
  obtain ⟨-, hp⟩ := List.mem_filter.1 hp
  rw [h p (Bool.and_eq_true_iff.1 hp).1]

/-- The set half of `{~w, w}` sends the pins of `w` to their bit of `w`, the reset half the other pins. -/
theorem driveEvents_of_halves (w : PinMask) (out : Pin → Bool) :
    phaseEvents (fun p => w.getLsbD p.val) out (fun _ => true) ++ phaseEvents (fun p => !w.getLsbD p.val) out (fun _ => false) =
      phaseEvents (fun p => w.getLsbD p.val) out (fun p => w.getLsbD p.val) ++
        phaseEvents (fun p => !w.getLsbD p.val) out fun p => w.getLsbD p.val := by
  congr 1
  · exact phaseEvents_congr out fun p hp => hp.symm
  · exact phaseEvents_congr out fun p hp => by simpa using hp

/-- A phase over all pins is, up to the order, its two parts. -/
theorem phaseEvents_split_perm (b out : Pin → Bool) (level : Pin → Level) :
    (phaseEvents (fun _ => true) out level).Perm (phaseEvents b out level ++ phaseEvents (fun p => !b p) out level) := by
  have hfilter (c : Pin → Bool) : allPins.filter (fun p => c p && out p) = (allPins.filter out).filter c := by
    rw [List.filter_filter]
  simp only [phaseEvents, hfilter, List.filter_true, ← List.map_append]
  exact (List.filter_append_perm b _).symm.map _

/-- Settles O24: the levels by `driveWrite_spec`; the events of the set half are those of the high pins, the events of the reset half
those of the low pins (`phaseEvents_split_perm`). -/
theorem outputDataEqualsFullBitSetReset : Obligations.OutputDataEqualsFullBitSetReset := by
  intro s w hmode
  have hout : s.port.isOutput = fun _ => true := funext fun p => Port.isOutput_of_mode (hmode p)
  have hlow (hi : BitVec 16) (p : Pin) : (hi ++ w).getLsbD p.val = w.getLsbD p.val := by
    rw [← getLsbD_lowHalf, lowHalf_append]
  have hhigh (p : Pin) : (~~~w ++ w).getLsbD (16 + p.val) = !w.getLsbD p.val := by
    rw [← getLsbD_highHalf, highHalf_append, BitVec.getLsbD_not, decide_eq_true p.isLt, Bool.true_and]
  obtain ⟨-, -, -, hodr, -⟩ := driveWrite_spec (i := .wrOdr (0#16 ++ w)) rfl s.port
  obtain ⟨-, -, -, hbsrr, -⟩ := driveWrite_spec (i := .wrBsrr (~~~w ++ w)) rfl s.port
  have hodrSig : (workOf (.wrOdr (0#16 ++ w)) s.port).port.sig = w := pinMask_ext fun p =>
    (hodr p).trans (by simp [hout, askedLevel, hlow])
  have hbsrrSig : (workOf (.wrBsrr (~~~w ++ w)) s.port).port.sig = w := pinMask_ext fun p =>
    (hbsrr p).trans (by simp only [hout, askedLevel, hlow, hhigh]; cases w.getLsbD p.val <;> rfl)
  have hperm : (driveEvents (.wrOdr (0#16 ++ w)) s.port.isOutput).Perm (driveEvents (.wrBsrr (~~~w ++ w)) s.port.isOutput) := by
    simp only [driveEvents, hlow, hhigh, driveEvents_of_halves]
    exact phaseEvents_split_perm _ _ _
  refine ⟨{ s.port with sig := w }, _, _, ?_, ?_, hperm, ?_, rfl⟩
  · rw [exec_driveWrite rfl, hodrSig]
  · rw [exec_driveWrite rfl, hbsrrSig]
  · rw [driveEvents, phaseEvents, hout, List.length_map]
    rfl

end Sys2Proof.Machine
end

section
/-! SUPPORT. Injections, resets and the lock register, each answer said once (44_pin_arbiter.md R111 to R114; 70_reset_and_hazards.md R140, R141;
43_lock_and_unmapped.md R100 to R103). -/

namespace Sys2Proof.Machine

/-! ### The arbiter and injection -/

/-- The index of a pin passes the range test; on an Input pin the level is written and its event emitted. -/
theorem injectLevel_of_input {w : Work} {p : Pin} (l : Level) (h : w.port.isInput p = true) :
    injectLevel (p.val : Int) l w = (w.emitConnSet p l).setLevel p l := by
  have hp : pinOfIndex (p.val : Int) = some p := (pinOfIndex_eq_some_iff _ p).2 rfl
  simp [injectLevel, hp, h]

/-- An index outside 0..15 ends an injection at the range test. -/
theorem injectLevel_out_of_range {idx : Int} (l : Level) (w : Work) (h : idx < 0 ∨ idx > 15) : injectLevel idx l w = w := by
  have hp : pinOfIndex idx = none := (pinOfIndex_eq_none_iff idx).2 h
  simp [injectLevel, hp]

/-- The driver's request is dropped on an Input pin and accepted on an Output pin (R80). -/
theorem applyOutputLevel_of_input {w : Work} {p : Pin} (l : Level) (h : w.port.isInput p = true) : applyOutputLevel p l w = w := by
  simp [applyOutputLevel, h]

theorem applyOutputLevel_of_output {w : Work} {p : Pin} (l : Level) (h : w.port.isInput p = false) :
    applyOutputLevel p l w = (w.emitConnSet p l).setLevel p l := by
  simp [applyOutputLevel, h]

theorem writesTables_iff (i : Instr) :
    writesTables i = true ↔ (∃ v, i = .wrCrl v) ∨ (∃ v, i = .wrCrh v) ∨ i = .reset ∨ i = .por := by
  cases i <;> simp [writesTables]

/-- Settles O28: the arbiter's four answers; a direction changes only in the tables (`workOf_tables`), and the writers of the tables
other than POR keep the levels. -/
theorem eachPinHasOneOwner : Obligations.EachPinHasOneOwner := by
  refine ⟨fun w p l => ⟨fun h => ?_, fun h => ?_⟩, fun i s t p h hchange => ?_, fun i s t h hi => ?_⟩
  · have hin := Port.isInput_of_mode h
    exact ⟨applyOutputLevel_of_input l hin, injectLevel_of_input l hin⟩
  · have hout := Port.isInput_eq_false_of_mode h
    exact ⟨applyOutputLevel_of_output l hout, injectLevel_of_output l hout⟩
  · cases hw : writesTables i with
    | true => exact (writesTables_iff i).1 hw
    | false =>
      have hsame : t.port.modeOf p = s.port.modeOf p := by
        rw [exec_next h]
        exact congrArg (·.get p) (workOf_tables i s.port hw).1
      rw [hsame] at hchange
      rcases hchange with ⟨hin, hout⟩ | ⟨hout, hin⟩ <;> exact absurd hin hout
  · rw [exec_next h, State.answer_port]
    rcases hi with ⟨v, rfl⟩ | ⟨v, rfl⟩ | rfl
    · exact writeConfig_sig lowPin v s.port
    · exact writeConfig_sig highPin v s.port
    · exact resetTables_sig s.port

/-- Settles O29: the work of the injection is `injectLevel_of_input`, the vector bit by bit. -/
theorem injectionOnInputIsAccepted : Obligations.InjectionOnInputIsAccepted := by
  intro s p l hmode
  have hwork : workOf (.inject (p.val : Int) l) s.port = ((Work.start s.port).emitConnSet p l).setLevel p l :=
    injectLevel_of_input l (Port.isInput_of_mode hmode)
  exact ⟨setPinBit s.port.sig p l,
    exec_of_work (congrArg Work.port hwork) rfl (congrArg Work.events hwork) (congrArg Work.diagnostics hwork),
    fun r => getLsbD_setPinBit s.port.sig p r l⟩

/-- Settles O31 by `injectLevel_out_of_range`. -/
theorem injectionOutOfRangeIsIgnored : Obligations.InjectionOutOfRangeIsIgnored := by
  intro s idx l h
  have hwork : workOf (.inject idx l) s.port = Work.start s.port := injectLevel_out_of_range l _ (by omega)
  exact exec_of_work (congrArg Work.port hwork) rfl (congrArg Work.events hwork) (congrArg Work.diagnostics hwork)

/-- Settles O43: an index is out of range (`injectLevel_out_of_range`) or names an Output pin (`injectLevel_of_output`). -/
theorem allOutputPortRejectsEveryInjection : Obligations.AllOutputPortRejectsEveryInjection := by
  intro s idx l hmode
  by_cases h : 0 ≤ idx ∧ idx ≤ 15
  · obtain ⟨p, rfl⟩ : ∃ p : Pin, idx = (p.val : Int) := ⟨⟨idx.toNat, by omega⟩, by simp [h.1]⟩
    exact ⟨_, injectionOnOutputIsRejected s p l (hmode p), by rw [if_pos h]; rfl⟩
  · exact ⟨_, injectionOutOfRangeIsIgnored s idx l (by omega), by rw [if_neg h]; rfl⟩

/-! ### The resets -/

/-- What the block holds right after power-on (R23). -/
theorem reset_port_entries (p : Pin) : State.reset.port.modeOf p = modeInput ∧ State.reset.port.cnfOf p = cnfFloating := by
  revert p; decide

/-- POR leaves the block of the initial state, whatever it found (R141). -/
theorem powerOn_eq_reset (q : Port) : q.powerOn = State.reset.port :=
  Port.ext_of (fun p => (resetTables_entries q p).1.trans (reset_port_entries p).1.symm)
    (fun p => (resetTables_entries q p).2.trans (reset_port_entries p).2.symm) rfl

/-- Settles O10: the tables by `reset_port_entries`, the registers by `readConfig_default`. -/
theorem resetStateIsAfterPowerOn : Obligations.ResetStateIsAfterPowerOn :=
  ⟨fun p => ⟨(reset_port_entries p).1, (reset_port_entries p).2, BitVec.getLsbD_zero⟩,
    readConfig_default lowPin _ fun k => reset_port_entries (lowPin k),
    readConfig_default highPin _ fun k => reset_port_entries (highPin k), rfl, rfl, rfl, (powerOn_eq_reset _).symm⟩

/-- Settles O32: the tables by `resetTables_entries`, the levels by `resetTables_sig`. -/
theorem portResetKeepsLevels : Obligations.PortResetKeepsLevels := fun s =>
  ⟨s.port.resetTables, exec_of_work rfl rfl rfl rfl, resetTables_entries s.port, resetTables_sig s.port⟩

/-- Settles O33: the tables by `resetTables_entries`, the whole block by `powerOn_eq_reset`. -/
theorem powerOnClearsEverything : Obligations.PowerOnClearsEverything := fun s =>
  ⟨s.port.powerOn, exec_of_work rfl rfl rfl rfl,
    fun p => ⟨(resetTables_entries s.port p).1, (resetTables_entries s.port p).2, BitVec.getLsbD_zero⟩, powerOn_eq_reset s.port⟩

/-- Settles O51: an empty run has no event, no write and no line; the registers read their default (`readConfig_default`). -/
theorem invariantsHoldAtReset : Obligations.InvariantsHoldAtReset :=
  ⟨rfl, ⟨readConfig_default lowPin _ fun k => reset_port_entries (lowPin k),
    readConfig_default highPin _ fun k => reset_port_entries (highPin k)⟩, fun _ he => nomatch he⟩

/-! ### The lock register, the unmapped offsets, and writes that do nothing -/

/-- Settles O18: `workOf` starts from the port and does nothing to it. -/
theorem writeInputDataDoesNothing : Obligations.WriteInputDataDoesNothing := fun _ _ =>
  exec_of_work rfl rfl rfl rfl

/-- The result of the lock register is the policy's (R100, R101). -/
theorem resultOf_lckr_razWi {c : Config} (h : c.lckrPolicy = .razWi) (v : Word) (q : Port) :
    resultOf c .rdLckr q = .data 0x00000000#32 ∧ resultOf c (.wrLckr v) q = .ok := by
  simp [resultOf, h]

theorem resultOf_lckr_reject {c : Config} (h : c.lckrPolicy = .reject) (v : Word) (q : Port) :
    resultOf c .rdLckr q = .addressingError 0x18#32 ∧ resultOf c (.wrLckr v) q = .addressingError 0x18#32 := by
  simp [resultOf, h]

/-- Settles O25, policy by policy. -/
theorem lockRegisterUnderBothPolicies : Obligations.LockRegisterUnderBothPolicies := by
  refine fun s v => ⟨fun h => ?_, fun h => ?_⟩
  · obtain ⟨hread, hwrite⟩ := resultOf_lckr_razWi h v s.port
    exact ⟨exec_of_work rfl hread rfl rfl, exec_of_work rfl hwrite rfl rfl⟩
  · obtain ⟨hread, hwrite⟩ := resultOf_lckr_reject h v s.port
    exact ⟨exec_of_work rfl hread rfl rfl, exec_of_work rfl hwrite rfl rfl⟩

/-- Settles O26: writes to the lock register keep the block (`runOps_keeps`), and a configuration write reads nothing else. -/
theorem lockRegisterNeverLocks : Obligations.LockRegisterNeverLocks := by
  intro s vs w
  obtain ⟨t, hrun, hport⟩ := runOps_keeps id (∃ v, · = .wrLckr v) (fun i q ⟨v, hi⟩ => by rw [hi]; rfl) (vs.map .wrLckr) s
    (by simp)
  have hport : t.port = s.port := hport
  exact ⟨t, _, _, _, hrun, hport, exec_eq _ _, exec_eq _ _, congrArg (writeConfig lowPin w) hport, exec_eq _ _, _, exec_eq _ _,
    congrArg (writeConfig highPin w) hport⟩

/-- Settles O27: the decoder by `not_mem_mappedOffsets`, the answers by `resultOf`. -/
theorem unmappedAccessIsAddressingError : Obligations.UnmappedAccessIsAddressingError := fun _ _ v h =>
  ⟨decode_memRead_unmapped (not_mem_mappedOffsets h), decode_memWrite_unmapped v (not_mem_mappedOffsets h),
    exec_of_work rfl rfl rfl rfl, exec_of_work rfl rfl rfl rfl⟩

/-! ### Outputs and ports -/

/-- Settles O49: `pin_oe` is `OUTMASK` (`getLsbD_outMask`). -/
theorem pinOutputsShowLevelsAndDirections : Obligations.PinOutputsShowLevelsAndDirections := by
  intro s p
  refine ⟨rfl, ?_, rfl, rfl⟩
  rw [pinOutputEnable, getLsbD_outMask]
  exact s.port.isOutput_iff p

/-- A step of a system that goes on is a step of one port, put in that port's place. -/
theorem stepPort_next {ports ports' : List State} {k : Fin ports.length} (h : stepPort ports k = .next ports') :
    ∃ t, step (ports.get k) = .next t ∧ ports' = ports.set k.val t := by
  unfold stepPort at h
  split at h
  · next t hstep =>
    injection h with h
    exact ⟨t, hstep, h.symm⟩
  · cases h
  · cases h

/-- Settles O50: `stepPort_next`, and a list with one entry replaced. -/
theorem portsShareNoState : Obligations.PortsShareNoState := by
  intro ports ports' k h
  obtain ⟨t, hstep, rfl⟩ := stepPort_next h
  exact ⟨List.length_set, ⟨t, hstep, List.getElem?_set_self k.isLt⟩, fun j hj => List.getElem?_set_ne hj.symm⟩

end Sys2Proof.Machine
end

section
/-! SUPPORT. The response of an operation: its result, its diagnostics, and the conditions it reports (60_exceptions.md sections 1 and 3;
30_encoding.md section 3). -/

namespace Sys2Proof.Machine

/-! ### Responses the rules allow -/

/-- Bits 31:16 of Input Data and Output Data are reserved and read as 0 (R54, R55). -/
theorem readLevels_reserved (q : Port) : readLevels q &&& ~~~0x0000FFFF#32 = 0#32 := by
  have hmask : ∀ i : Fin 16, (~~~0x0000FFFF#32).getLsbD i.val = false := by decide
  apply BitVec.eq_of_getLsbD_eq
  intro i hi
  rw [BitVec.getLsbD_and, BitVec.getLsbD_zero]
  by_cases h : i < 16
  · rw [hmask ⟨i, h⟩, Bool.and_false]
  · rw [readLevels, BitVec.getLsbD_setWidth, BitVec.getLsbD_of_ge _ _ (Nat.le_of_not_lt h), Bool.and_false, Bool.false_and]

/-- An injection answers in silence out of range, with one event or one warning in range (R111 to R114). -/
theorem responseAllowed_inject (c : Config) (idx : Int) (l : Level) (q : Port) :
    ResponseAllowed c ⟨.ok, (workOf (.inject idx l) q).events, (workOf (.inject idx l) q).diagnostics⟩ (.inject idx l) := by
  rcases injectLevel_cases idx l (Work.start q) with ⟨hrange, hwork⟩ | ⟨p, hp, ⟨-, hwork⟩ | ⟨-, hwork⟩⟩
  · rw [workOf, hwork]
    exact .inl ⟨hrange, rfl⟩
  · rw [workOf, hwork]
    exact .inr ⟨p, hp, .inr rfl⟩
  · rw [workOf, hwork]
    exact .inr ⟨p, hp, .inl rfl⟩

/-- The events of a drive write are those of the Output pins of the block (R84, R91, R94). -/
theorem responseAllowed_driveWrite {i : Instr} (h : isDriveWrite i = true) (c : Config) (q : Port) :
    ResponseAllowed c ⟨.ok, (workOf i q).events, (workOf i q).diagnostics⟩ i := by
  obtain ⟨-, -, hdiag, -, hevents⟩ := driveWrite_spec h q
  rw [hdiag, hevents]
  rcases (isDriveWrite_iff i).1 h with ⟨v, rfl⟩ | ⟨v, rfl⟩ | ⟨v, rfl⟩ <;> exact ⟨q.isOutput, rfl⟩

/-- Every operation answers as the rules allow it under the policy. -/
theorem responseAllowed_exec (c : Config) (i : Instr) (q : Port) :
    ResponseAllowed c ⟨resultOf c i q, (workOf i q).events, (workOf i q).diagnostics⟩ i := by
  cases i with
  | wrOdr v => exact responseAllowed_driveWrite rfl c q
  | wrBsrr v => exact responseAllowed_driveWrite rfl c q
  | wrBrr v => exact responseAllowed_driveWrite rfl c q
  | inject idx l => exact responseAllowed_inject c idx l q
  | rdCrl => exact ⟨_, rfl⟩
  | rdCrh => exact ⟨_, rfl⟩
  | rdIdr => exact ⟨_, readLevels_reserved q, rfl⟩
  | rdOdr => exact ⟨_, readLevels_reserved q, rfl⟩
  | rdLckr =>
    cases h : c.lckrPolicy with
    | razWi => rw [(resultOf_lckr_razWi h 0 q).1]; exact .inl ⟨h, rfl⟩
    | reject => rw [(resultOf_lckr_reject h 0 q).1]; exact .inr ⟨h, rfl⟩
  | wrLckr v =>
    cases h : c.lckrPolicy with
    | razWi => rw [(resultOf_lckr_razWi h v q).2]; exact .inl ⟨h, rfl⟩
    | reject => rw [(resultOf_lckr_reject h v q).2]; exact .inr ⟨h, rfl⟩
  | _ => exact rfl

/-- Settles O54: the lines before stay, under the same policy; the new one is allowed by `responseAllowed_exec`. -/
theorem stepKeepsTheRunLawful : Obligations.StepKeepsTheRunLawful := by
  refine step_keeps (fun _ _ h => h) fun i s hwf hs e he => ?_
  rw [State.answer_transcript, List.mem_append, List.mem_singleton] at he
  rcases he with he | rfl
  · exact hs e he
  · exact ⟨hwf, responseAllowed_exec s.config i s.port⟩

/-! ### Conditions -/

/-- Which operations fail, and with which offset (R100 to R103, R120). -/
theorem resultOf_eq_addressingError_iff (c : Config) (i : Instr) (q : Port) (off : Word) :
    resultOf c i q = .addressingError off ↔
      i = .rdUnmapped off ∨ (∃ v, i = .wrUnmapped off v) ∨
      (c.lckrPolicy = .reject ∧ off = 0x18#32 ∧ (i = .rdLckr ∨ ∃ v, i = .wrLckr v)) := by
  cases i with
  | rdLckr => cases h : c.lckrPolicy <;> simp [resultOf, h, eq_comm]
  | wrLckr v => cases h : c.lckrPolicy <;> simp [resultOf, h, eq_comm]
  | _ => simp [resultOf]

/-- A failed operation has done nothing (R126). -/
theorem workOf_of_err {c : Config} {i : Instr} {q : Port} (h : (resultOf c i q).err = true) : workOf i q = Work.start q := by
  cases i with
  | wrCrl _ => cases h
  | wrCrh _ => cases h
  | wrOdr _ => cases h
  | wrBsrr _ => cases h
  | wrBrr _ => cases h
  | inject _ _ => cases h
  | reset => cases h
  | por => cases h
  | _ => rfl

theorem rdata_of_err {r : Result} (h : r.err = true) : r.rdata = none := by
  cases r with
  | ok => rfl
  | data v => cases h
  | addressingError off => rfl

/-- Settles O39: every operation answers (`exec_eq`), a failure as `resultOf_eq_addressingError_iff` says, with nothing done
(`workOf_of_err`). -/
theorem addressingErrorIsExact : Obligations.AddressingErrorIsExact := by
  refine fun i s _ => ⟨_, _, exec_eq i s, resultOf_eq_addressingError_iff s.config i s.port, fun herr => ?_⟩
  have hwork : workOf i s.port = Work.start s.port := workOf_of_err herr
  exact ⟨congrArg Work.port hwork, congrArg Work.events hwork, congrArg Work.diagnostics hwork, rdata_of_err herr⟩

/-- Settles O40: only an injection on an Output pin warns, and then that is all it does (`workOf_diagnostics`). -/
theorem warningIsExactlyARejectedInjection : Obligations.WarningIsExactlyARejectedInjection := by
  intro i s t r h ht
  obtain ⟨rfl, rfl⟩ := response_of_exec h ht
  rcases workOf_diagnostics i s.port with ⟨hnone, hinput⟩ | ⟨p, l, rfl, hout, hwork⟩
  · refine ⟨fun p => ⟨fun hp => by simp [hnone] at hp, fun ⟨hmode, l, hi⟩ => ?_⟩, fun hne => absurd hnone hne⟩
    exact absurd ((s.port.isInput_iff p).1 (hinput p l hi)) hmode
  · refine ⟨fun p' => ?_, fun _ => ?_⟩
    · have hmode : s.port.modeOf p ≠ 0b00#2 := mt (s.port.isInput_iff p).2 (Bool.eq_false_iff.1 hout)
      simp only [hwork, Work.emitWarn_diagnostics, Work.start_diagnostics, List.nil_append, List.mem_singleton,
        Diagnostic.wrongDirection.injEq, Instr.inject.injEq, Nat.cast_inj, Fin.val_inj, exists_and_left, exists_eq', and_true]
      exact ⟨fun hp => ⟨hp ▸ hmode, hp.symm⟩, fun hp => hp.2.symm⟩
    · simp [hwork, resultOf]

/-- Settles O41: a failure has done nothing (`workOf_of_err`), a warning is alone (`workOf_diagnostics`), and no injection fails. -/
theorem atMostOneConditionAndNoTrace : Obligations.AtMostOneConditionAndNoTrace := by
  intro i s t r h ht
  obtain ⟨rfl, rfl⟩ := response_of_exec h ht
  cases herr : (resultOf s.config i s.port).err with
  | true => simp [Response.conditions, herr, workOf_of_err herr]
  | false =>
    rcases workOf_diagnostics i s.port with ⟨hnone, -⟩ | ⟨p, l, rfl, -, hwork⟩
    · simp [Response.conditions, herr, hnone]
    · simp [Response.conditions, herr, hwork]

/-! ### Reserved bits -/

theorem lowHalf_and_mask (v : Word) : lowHalf (v &&& 0x0000FFFF#32) = lowHalf v := by
  have hmask : ∀ p : Pin, (0x0000FFFF#32).getLsbD p.val = true := by decide
  apply pinMask_ext
  intro p
  rw [getLsbD_lowHalf, getLsbD_lowHalf, BitVec.getLsbD_and, hmask, Bool.and_true]

/-- A write does on the defined bits alone what it does on the whole word (R61). -/
theorem workOf_definedBits (reg : RegName) (v : Word) (q : Port) :
    workOf (decodeWrite reg.offset (v &&& reg.definedBits)) q = workOf (decodeWrite reg.offset v) q := by
  cases reg with
  | crl => rw [RegName.definedBits, and_allOnes_word]
  | crh => rw [RegName.definedBits, and_allOnes_word]
  | bsrr => rw [RegName.definedBits, and_allOnes_word]
  | idr => rfl
  | lckr => rfl
  | odr => exact congrArg (outputPhase · (Work.start q)) (lowHalf_and_mask v)
  | brr => exact congrArg (resetPhase · (Work.start q)) (lowHalf_and_mask v)

/-- A write of a register is ok and does not warn; the lock register under RAZ_WI. -/
theorem decodeWrite_register_ok (reg : RegName) (c : Config) (v : Word) (q : Port) (h : reg = .lckr → c.lckrPolicy = .razWi) :
    resultOf c (decodeWrite reg.offset v) q = .ok ∧ (workOf (decodeWrite reg.offset v) q).diagnostics = [] := by
  refine ⟨?_, ?_⟩
  · cases reg with
    | lckr => exact (resultOf_lckr_razWi (h rfl) v q).2
    | _ => rfl
  · rcases workOf_diagnostics (decodeWrite reg.offset v) q with ⟨hnone, -⟩ | ⟨p, l, hi, -⟩
    · exact hnone
    · cases reg <;> cases hi

/-- A read of a register has no effect and answers data whose reserved bits are 0; the lock register under RAZ_WI. -/
theorem decodeRead_register_data (reg : RegName) (c : Config) (q : Port) (h : reg = .lckr → c.lckrPolicy = .razWi) :
    workOf (decodeRead reg.offset) q = Work.start q ∧
    ∃ v, resultOf c (decodeRead reg.offset) q = .data v ∧ v &&& ~~~reg.definedBits = 0#32 := by
  cases reg with
  | crl => exact ⟨rfl, _, rfl, BitVec.and_zero⟩
  | crh => exact ⟨rfl, _, rfl, BitVec.and_zero⟩
  | idr => exact ⟨rfl, _, rfl, readLevels_reserved q⟩
  | odr => exact ⟨rfl, _, rfl, readLevels_reserved q⟩
  | bsrr => exact ⟨rfl, _, rfl, BitVec.zero_and⟩
  | brr => exact ⟨rfl, _, rfl, BitVec.zero_and⟩
  | lckr => exact ⟨rfl, _, (resultOf_lckr_razWi (h rfl) 0 q).1, BitVec.zero_and⟩

/-- Settles O38: reads by `decodeRead_register_data`, writes by `workOf_definedBits`. -/
theorem reservedBitsReadZeroAndAreIgnored : Obligations.ReservedBitsReadZeroAndAreIgnored := by
  intro reg s hpolicy
  obtain ⟨hread, v, hdata, hreserved⟩ := decodeRead_register_data reg s.config s.port hpolicy
  refine ⟨⟨v, exec_of_work (congrArg Work.port hread) hdata (congrArg Work.events hread) (congrArg Work.diagnostics hread),
    hreserved⟩, fun v => ?_⟩
  obtain ⟨hok, hdiag⟩ := decodeWrite_register_ok reg s.config v s.port hpolicy
  obtain ⟨hok', hdiag'⟩ := decodeWrite_register_ok reg s.config (v &&& reg.definedBits) s.port hpolicy
  have hwork := workOf_definedBits reg v s.port
  exact ⟨_, _, exec_of_work rfl hok rfl hdiag,
    exec_of_work (congrArg Work.port hwork) hok' (congrArg Work.events hwork) hdiag'⟩

end Sys2Proof.Machine
end

section
/-! SUPPORT. Frames, and what an operation cannot depend on (10_state.md R10 to R12, R18, R19; 20_memory.md R38; 70_reset_and_hazards.md R150,
R157). -/

namespace Sys2Proof.Machine

/-! ### What an operation leaves alone -/

/-- Settles O34: the tables by `workOf_tables`, the rest by the one form of every answer (`exec_next`). -/
theorem tablesChangeOnlyByConfigWritesAndResets : Obligations.TablesChangeOnlyByConfigWritesAndResets := by
  intro i s t h
  rw [exec_next h]
  refine ⟨fun hw p => ?_, rfl, rfl, _, rfl⟩
  obtain ⟨hmode, hcnf⟩ := workOf_tables i s.port hw
  exact ⟨congrArg (·.get p) hmode, congrArg (·.get p) hcnf⟩

theorem Port.level_of_sig {q r : Port} (h : q.sig = r.sig) (p : Pin) : q.level p = r.level p :=
  congrArg (·.getLsbD p.val) h

/-- Who can have changed a level (R12). -/
theorem workOf_level_changed {i : Instr} {q : Port} {p : Pin} (h : (workOf i q).port.level p ≠ q.level p) :
    i = .por ∨ (isDriveWrite i = true ∧ q.isInput p = false) ∨
      (q.isInput p = true ∧ i = .inject (p.val : Int) ((workOf i q).port.level p)) := by
  cases hdrive : isDriveWrite i with
  | true => exact .inr (.inl ⟨rfl, Bool.eq_false_iff.2 fun hin => h (driveWrite_level_of_input hdrive hin)⟩)
  | false =>
    cases i with
    | por => exact .inl rfl
    | inject idx l =>
      rcases injectLevel_cases idx l (Work.start q) with ⟨-, hwork⟩ | ⟨r, rfl, ⟨-, hwork⟩ | ⟨hin, hwork⟩⟩
      · exact absurd (congrArg (·.port.level p) hwork) h
      · exact absurd (congrArg (·.port.level p) hwork) h
      · have hlevel : (workOf (.inject (r.val : Int) l) q).port.level p = if p = r then l else q.level p :=
          (congrArg (·.port.level p) hwork).trans (Port.setLevel_level q r p l)
        by_cases hp : p = r
        · subst hp
          rw [hlevel, if_pos rfl]
          exact .inr (.inr ⟨hin, rfl⟩)
        · exact absurd (hlevel.trans (if_neg hp)) h
    | wrCrl v => exact absurd (Port.level_of_sig (writeConfig_sig lowPin v q) p) h
    | wrCrh v => exact absurd (Port.level_of_sig (writeConfig_sig highPin v q) p) h
    | reset => exact absurd (Port.level_of_sig (resetTables_sig q) p) h
    | wrOdr v => cases hdrive
    | wrBsrr v => cases hdrive
    | wrBrr v => cases hdrive
    | _ => exact absurd rfl h

/-- Settles O35 by `workOf_level_changed`. -/
theorem levelsChangeOnlyByTheirOwner : Obligations.LevelsChangeOnlyByTheirOwner := by
  intro i s t p h hlevel
  rw [exec_next h] at hlevel ⊢
  rcases workOf_level_changed hlevel with hpor | ⟨hdrive, hout⟩ | ⟨hin, hinj⟩
  · exact .inl hpor
  · exact .inr (.inl ⟨hdrive, mt (s.port.isInput_iff p).2 (Bool.eq_false_iff.1 hout)⟩)
  · exact .inr (.inr ⟨(s.port.isInput_iff p).1 hin, hinj⟩)

/-! ### Done twice -/

theorem workOf_busRead {i : Instr} (h : isBusRead i = true) (q : Port) : workOf i q = Work.start q := by
  cases i with
  | wrCrl _ => cases h
  | wrCrh _ => cases h
  | wrOdr _ => cases h
  | wrBsrr _ => cases h
  | wrBrr _ => cases h
  | inject _ _ => cases h
  | reset => cases h
  | por => cases h
  | _ => rfl

/-- Settles O36: a read works nothing out but its result (`workOf_busRead`). -/
theorem readsHaveNoSideEffects : Obligations.ReadsHaveNoSideEffects := by
  intro i s h
  have hwork : workOf i s.port = Work.start s.port := workOf_busRead h s.port
  refine ⟨resultOf s.config i s.port,
    exec_of_work (congrArg Work.port hwork) rfl (congrArg Work.events hwork) (congrArg Work.diagnostics hwork), ?_⟩
  rw [runOps_pair, hwork, Work.start_port, hwork]
  rfl

/-- A configuration write done twice stores what it stored. -/
theorem writeConfig_idem {pinAt : Fin 8 → Pin} (inj : Function.Injective pinAt) (v : Word) (q : Port) :
    writeConfig pinAt v (writeConfig pinAt v q) = writeConfig pinAt v q := by
  have hentries (r : Pin) : (writeConfig pinAt v (writeConfig pinAt v q)).modeOf r = (writeConfig pinAt v q).modeOf r ∧
      (writeConfig pinAt v (writeConfig pinAt v q)).cnfOf r = (writeConfig pinAt v q).cnfOf r := by
    by_cases h : ∃ k, r = pinAt k
    · obtain ⟨k, rfl⟩ := h
      obtain ⟨hmode, hcnf⟩ := writeConfig_at pinAt inj v q k
      obtain ⟨hmode', hcnf'⟩ := writeConfig_at pinAt inj v (writeConfig pinAt v q) k
      exact ⟨hmode'.trans hmode.symm, hcnf'.trans hcnf.symm⟩
    · exact writeConfig_other pinAt v _ r (not_exists.1 h)
  exact Port.ext_of (fun r => (hentries r).1) (fun r => (hentries r).2) (writeConfig_sig pinAt v _)

/-- A drive write done twice: the Output pins have the levels asked for already, and the events are sent again (D9). -/
theorem workOf_driveWrite_idem {i : Instr} (h : isDriveWrite i = true) (q : Port) :
    workOf i (workOf i q).port = workOf i q := by
  obtain ⟨hmode, -, hdiag, hlevel, hevents⟩ := driveWrite_spec h q
  obtain ⟨hmode', hcnf', hdiag', hlevel', hevents'⟩ := driveWrite_spec h (workOf i q).port
  have hout : (workOf i q).port.isOutput = q.isOutput := funext (Port.isOutput_congr hmode)
  refine Work.ext_of hmode' hcnf' (fun p => ?_) (by rw [hevents', hevents, hout]) (hdiag'.trans hdiag.symm)
  rw [hlevel', hout, hlevel]
  cases q.isOutput p <;> cases askedLevel i p <;> rfl

theorem workOf_busWrite_idem {i : Instr} (h : isBusWrite i = true) (q : Port) : workOf i (workOf i q).port = workOf i q := by
  cases i with
  | wrCrl v => exact congrArg Work.start (writeConfig_idem lowPin_injective v q)
  | wrCrh v => exact congrArg Work.start (writeConfig_idem highPin_injective v q)
  | wrOdr v => exact workOf_driveWrite_idem rfl q
  | wrBsrr v => exact workOf_driveWrite_idem rfl q
  | wrBrr v => exact workOf_driveWrite_idem rfl q
  | wrIdr v => rfl
  | wrLckr v => rfl
  | wrUnmapped off v => rfl
  | _ => cases h

/-- The result of a bus write does not show the block. -/
theorem resultOf_busWrite {i : Instr} (h : isBusWrite i = true) (c : Config) (q r : Port) : resultOf c i q = resultOf c i r := by
  cases i with
  | rdCrl => cases h
  | rdCrh => cases h
  | rdIdr => cases h
  | rdOdr => cases h
  | _ => rfl

/-- Settles O37: the second write works out what the first did (`workOf_busWrite_idem`). -/
theorem repeatedWritesRepeatTheirEvents : Obligations.RepeatedWritesRepeatTheirEvents := by
  refine fun i s h => ⟨_, _, exec_eq i s, ?_⟩
  rw [runOps_pair, workOf_busWrite_idem h, resultOf_busWrite h s.config (workOf i s.port).port s.port]

/-! ### All pins Input -/

/-- With no Output pin a drive write has no one to send events to. -/
theorem driveEvents_no_output (i : Instr) : driveEvents i (fun _ => false) = [] := by
  cases i <;> simp [driveEvents, phaseEvents]

theorem busWrite_all_input {i : Instr} (h : isBusWrite i = true) {q : Port} (hin : ∀ p, q.isInput p = true) :
    (workOf i q).port.sig = q.sig ∧ (workOf i q).events = [] ∧ (workOf i q).diagnostics = [] := by
  cases hdrive : isDriveWrite i with
  | true =>
    obtain ⟨-, -, hdiag, -, hevents⟩ := driveWrite_spec hdrive q
    have hout : q.isOutput = fun _ => false := funext fun p => by rw [Port.isOutput, hin]; rfl
    exact ⟨pinMask_ext fun p => driveWrite_level_of_input hdrive (hin p), by rw [hevents, hout, driveEvents_no_output], hdiag⟩
  | false =>
    cases i with
    | wrCrl v => exact ⟨writeConfig_sig lowPin v q, rfl, rfl⟩
    | wrCrh v => exact ⟨writeConfig_sig highPin v q, rfl, rfl⟩
    | wrIdr v => exact ⟨rfl, rfl, rfl⟩
    | wrLckr v => exact ⟨rfl, rfl, rfl⟩
    | wrUnmapped off v => exact ⟨rfl, rfl, rfl⟩
    | wrOdr v => cases hdrive
    | wrBsrr v => cases hdrive
    | wrBrr v => cases hdrive
    | _ => cases h

/-- Settles O42 by `busWrite_all_input`. -/
theorem allInputPortDropsEveryDrive : Obligations.AllInputPortDropsEveryDrive := by
  intro i s hmode h
  obtain ⟨hsig, hevents, hdiag⟩ := busWrite_all_input h fun p => Port.isInput_of_mode (hmode p)
  exact ⟨_, _, exec_of_work rfl rfl hevents hdiag, hsig⟩

/-! ### Noninterference -/

/-- Settles O46: `exec_eq` names all that an operation reads. -/
theorem runHistoryNeverFeedsBack : Obligations.RunHistoryNeverFeedsBack := by
  intro i s s' hport hconfig
  refine ⟨_, _, exec_eq i s, ?_⟩
  rw [hport, hconfig]
  exact exec_eq i s'

/-- Two blocks agree on what the arbiter tells apart (R110): which pins are Input pins, and the levels. -/
structure Port.SameLines (q r : Port) : Prop where
  isInput : ∀ p, q.isInput p = r.isInput p
  sig : q.sig = r.sig

/-- Two operations in progress agree on that, and have emitted the same. -/
structure Work.SameLines (v w : Work) : Prop where
  port : v.port.SameLines w.port
  events : v.events = w.events
  diagnostics : v.diagnostics = w.diagnostics

theorem Work.SameLines.of_ports {q r : Port} (h : q.SameLines r) : (Work.start q).SameLines (Work.start r) := ⟨h, rfl, rfl⟩

/-- A configuration write gives its pins the same directions in both blocks and leaves the others theirs. -/
theorem Port.SameLines.writeConfig {q r : Port} (h : q.SameLines r) {pinAt : Fin 8 → Pin} (inj : Function.Injective pinAt)
    (v : Word) : (writeConfig pinAt v q).SameLines (writeConfig pinAt v r) := by
  refine ⟨fun p => ?_, by rw [writeConfig_sig, writeConfig_sig, h.sig]⟩
  by_cases hp : ∃ k, p = pinAt k
  · obtain ⟨k, rfl⟩ := hp
    rw [Port.isInput, Port.isInput, (writeConfig_at pinAt inj v q k).1, (writeConfig_at pinAt inj v r k).1]
  · have hother := not_exists.1 hp
    rw [Port.isInput, Port.isInput, (writeConfig_other pinAt v q p hother).1, (writeConfig_other pinAt v r p hother).1]
    exact h.isInput p

theorem resetTables_isInput (q : Port) (p : Pin) : q.resetTables.isInput p = true :=
  (Port.isInput_iff _ p).2 (resetTables_entries q p).1

theorem Port.SameLines.resetTables {q r : Port} (h : q.SameLines r) : q.resetTables.SameLines r.resetTables :=
  ⟨fun p => by rw [resetTables_isInput, resetTables_isInput], by rw [resetTables_sig, resetTables_sig, h.sig]⟩

theorem Port.SameLines.setLevel {q r : Port} (h : q.SameLines r) (p : Pin) (l : Level) :
    (q.setLevel p l).SameLines (r.setLevel p l) :=
  ⟨h.isInput, congrArg (setPinBit · p l) h.sig⟩

theorem driveWrite_sameLines {i : Instr} (hi : isDriveWrite i = true) {q r : Port} (h : q.SameLines r) :
    (workOf i q).SameLines (workOf i r) := by
  obtain ⟨-, -, hdiag, hlevel, hevents⟩ := driveWrite_spec hi q
  obtain ⟨-, -, hdiag', hlevel', hevents'⟩ := driveWrite_spec hi r
  have hout : q.isOutput = r.isOutput := funext fun p => congrArg not (h.isInput p)
  refine ⟨⟨fun p => ?_, pinMask_ext fun p => ?_⟩, by rw [hevents, hevents', hout], hdiag.trans hdiag'.symm⟩
  · rw [driveWrite_isInput hi, driveWrite_isInput hi, h.isInput]
  · exact (hlevel p).trans (by rw [hout, Port.level_of_sig h.sig]; exact (hlevel' p).symm)

theorem inject_sameLines (idx : Int) (l : Level) {q r : Port} (h : q.SameLines r) :
    (workOf (.inject idx l) q).SameLines (workOf (.inject idx l) r) := by
  rw [workOf, workOf]
  rcases injectLevel_cases idx l (Work.start q) with ⟨hout, hwork⟩ | ⟨p, rfl, ⟨hin, hwork⟩ | ⟨hin, hwork⟩⟩
  · rw [hwork, injectLevel_out_of_range l _ hout]
    exact .of_ports h
  · rw [hwork, injectLevel_of_output l ((h.isInput p).symm.trans hin)]
    exact ⟨h, rfl, rfl⟩
  · rw [hwork, injectLevel_of_input l ((h.isInput p).symm.trans hin)]
    exact ⟨h.setLevel p l, rfl, rfl⟩

/-- Every operation keeps two blocks alike, and emits alike on them. -/
theorem workOf_sameLines (i : Instr) {q r : Port} (h : q.SameLines r) : (workOf i q).SameLines (workOf i r) := by
  cases i with
  | wrCrl v => exact .of_ports (h.writeConfig lowPin_injective v)
  | wrCrh v => exact .of_ports (h.writeConfig highPin_injective v)
  | wrOdr v => exact driveWrite_sameLines rfl h
  | wrBsrr v => exact driveWrite_sameLines rfl h
  | wrBrr v => exact driveWrite_sameLines rfl h
  | inject idx l => exact inject_sameLines idx l h
  | reset => exact .of_ports h.resetTables
  | por => exact .of_ports ⟨h.resetTables.isInput, rfl⟩
  | _ => exact .of_ports h

/-- The results other than those of the two configuration reads show the levels only. -/
theorem resultOf_sameLines {i : Instr} (hi : readsTables i = false) (c : Config) {q r : Port} (h : q.SameLines r) :
    resultOf c i q = resultOf c i r := by
  cases i with
  | rdCrl => cases hi
  | rdCrh => cases hi
  | rdIdr => exact congrArg (fun sig : PinMask => Result.data (sig.setWidth 32)) h.sig
  | rdOdr => exact congrArg (fun sig : PinMask => Result.data (sig.setWidth 32)) h.sig
  | _ => rfl

/-- Settles O45: results by `resultOf_sameLines`, the rest by `workOf_sameLines`. -/
theorem onlyDirectionsAndLevelsMatter : Obligations.OnlyDirectionsAndLevelsMatter := by
  intro i s s' t t' r r' hmode hsig hconfig hi h ht h' ht'
  obtain ⟨rfl, rfl⟩ := response_of_exec h ht
  obtain ⟨rfl, rfl⟩ := response_of_exec h' ht'
  have hlines : s.port.SameLines s'.port :=
    ⟨fun p => Bool.eq_iff_iff.2 (by rw [Port.isInput_iff, Port.isInput_iff]; exact hmode p), hsig⟩
  obtain ⟨⟨hin, hlevels⟩, hevents, hdiag⟩ := workOf_sameLines i hlines
  refine ⟨by rw [hevents, hdiag, hconfig, resultOf_sameLines hi _ hlines], hlevels, fun p => ?_⟩
  have hiff := Bool.eq_iff_iff.1 (hin p)
  rwa [Port.isInput_iff, Port.isInput_iff] at hiff

/-! ### No output latch (R150) -/

/-- The level a pin has as an Input pin. -/
def Port.inputLevel (q : Port) (p : Pin) : Option Level := if q.isInput p then some (q.level p) else none

theorem inputLevel_driveWrite {i : Instr} (h : isDriveWrite i = true) (q : Port) (p : Pin) :
    (workOf i q).port.inputLevel p = q.inputLevel p := by
  unfold Port.inputLevel
  rw [driveWrite_isInput h]
  split
  · next hin => rw [driveWrite_level_of_input h hin]
  · rfl

/-- After drive writes an Input pin has the level it had, and so it has after one more operation that changes no level. -/
theorem level_after_drives {ds : List Instr} {i : Instr} {s : State} {p : Pin} (hin : s.port.isInput p = true)
    (hds : ∀ d ∈ ds, isDriveWrite d = true) (hi : ∀ q, (workOf i q).port.sig = q.sig) :
    ∃ t, runOps (ds ++ [i]) s = .next t ∧ t.port.level p = s.port.level p := by
  obtain ⟨t, hrun, hkeep⟩ := runOps_keeps (·.inputLevel p) (isDriveWrite · = true) (fun i q h => inputLevel_driveWrite h q p) ds s hds
  have hlevel : t.port.level p = s.port.level p := by
    simp only [Port.inputLevel, hin, if_true] at hkeep
    split at hkeep
    · exact Option.some.inj hkeep
    · cases hkeep
  refine ⟨_, by rw [runOps_append, hrun]; exact runOps_cons i [] t, ?_⟩
  exact (Port.level_of_sig (hi t.port) p).trans hlevel

/-- Settles O47 by `level_after_drives`: neither configuration write changes a level. -/
theorem noOutputLatch : Obligations.NoOutputLatch := fun _ _ _ v hmode hds =>
  ⟨level_after_drives (Port.isInput_of_mode hmode) hds (writeConfig_sig lowPin v),
    level_after_drives (Port.isInput_of_mode hmode) hds (writeConfig_sig highPin v)⟩

end Sys2Proof.Machine
end

section
/-! SUPPORT. The shorthands of 30_encoding.md R66: CFGPIN writes one pin's entries, SETPIN and CLRPIN drive one pin. -/

namespace Sys2Proof.Machine

/-- A nibble put in its place in a word of zeros. -/
theorem nib_shiftLeft (n : BitVec 4) (j k : Fin 8) : nib (n.setWidth 32 <<< (4 * j.val)) k = if k = j then n else 0#4 := by
  have h := nib_orFold (fun _ => n) k [j] 0#32
  simpa [show nib 0#32 k = 0#4 by simp [nib]] using h

theorem nib_or (v w : Word) (k : Fin 8) : nib (v ||| w) k = nib v k ||| nib w k := BitVec.extractLsb'_or

/-- A word with the nibble at j cut out. -/
theorem nib_cut (v : Word) (j k : Fin 8) : nib (v &&& ~~~(0xF#32 <<< (4 * j.val))) k = if k = j then 0#4 else nib v k := by
  have hmask : nib (~~~(0xF#32 <<< (4 * j.val))) k = if k = j then 0#4 else 0xF#4 := by revert j k; decide
  rw [nib, BitVec.extractLsb'_and, ← nib, ← nib, hmask]
  split
  · exact BitVec.and_zero
  · exact BitVec.and_allOnes

/-- The word that CFGPIN writes back differs from the one it read in the pin's nibble only. -/
theorem nib_cfgPinWord {p : Pin} {j : Fin 8} (hp : p.val % 8 = j.val) (m c : BitVec 2) (v : Word) (k : Fin 8) :
    nib (cfgPinWord p m c v) k = if k = j then pack m c else nib v k := by
  rw [cfgPinWord, hp, nib_or, nib_cut, nib_shiftLeft]
  split <;> simp

/-- Read and write back, CFGPIN sets one pin's entries. -/
theorem writeConfig_cfgPinWord {pinAt : Fin 8 → Pin} (inj : Function.Injective pinAt) {j : Fin 8}
    (hp : (pinAt j).val % 8 = j.val) (m c : BitVec 2) (q : Port) :
    writeConfig pinAt (cfgPinWord (pinAt j) m c (readConfig pinAt q)) q = q.setConfig (pinAt j) m c := by
  have hentries (r : Pin) :
      (writeConfig pinAt (cfgPinWord (pinAt j) m c (readConfig pinAt q)) q).modeOf r = (q.setConfig (pinAt j) m c).modeOf r ∧
      (writeConfig pinAt (cfgPinWord (pinAt j) m c (readConfig pinAt q)) q).cnfOf r = (q.setConfig (pinAt j) m c).cnfOf r := by
    rw [Port.setConfig_modeOf, Port.setConfig_cnfOf]
    by_cases h : ∃ k, r = pinAt k
    · obtain ⟨k, rfl⟩ := h
      obtain ⟨hmode, hcnf⟩ := writeConfig_at pinAt inj (cfgPinWord (pinAt j) m c (readConfig pinAt q)) q k
      rw [hmode, hcnf, nib_cfgPinWord hp, nib_readConfig]
      by_cases hk : k = j
      · simp [hk]
      · simp [hk, inj.ne hk]
    · have hother := not_exists.1 h
      rw [if_neg (hother j), if_neg (hother j)]
      exact writeConfig_other pinAt _ q r hother
  exact Port.ext_of (fun r => (hentries r).1) (fun r => (hentries r).2) (writeConfig_sig pinAt _ q)

/-- The two operations of CFGPIN: a read of the block as it is, and a write that sets the pin's entries. -/
theorem cfgPin_ops (p : Pin) (m c : BitVec 2) (q : Port) : ∃ (v : Word) (rd wr : Instr),
    decode (cfgPinReadLine p).stimulus = .ok rd ∧ decode (cfgPinWriteLine p m c v).stimulus = .ok wr ∧
    workOf rd q = Work.start q ∧ workOf wr q = Work.start (q.setConfig p m c) ∧
    ∀ cfg, resultOf cfg rd q = .data v ∧ resultOf cfg wr q = .ok := by
  obtain ⟨k, rfl⟩ | ⟨k, rfl⟩ := pin_cases p
  · have hreg : configRegOf (lowPin k) = .crl := if_pos k.isLt
    refine ⟨readConfig lowPin q, .rdCrl, .wrCrl _, ?_, ?_, rfl,
      congrArg Work.start (writeConfig_cfgPinWord lowPin_injective (Nat.mod_eq_of_lt k.isLt) m c q), fun _ => ⟨rfl, rfl⟩⟩
    · rw [cfgPinReadLine, hreg]; rfl
    · rw [cfgPinWriteLine, hreg]; rfl
  · have hreg : configRegOf (highPin k) = .crh := if_neg (Nat.not_lt.2 (Nat.le_add_right 8 k.val))
    have hmod : (highPin k).val % 8 = k.val := (Nat.add_mod_left 8 k.val).trans (Nat.mod_eq_of_lt k.isLt)
    refine ⟨readConfig highPin q, .rdCrh, .wrCrh _, ?_, ?_, rfl,
      congrArg Work.start (writeConfig_cfgPinWord highPin_injective hmod m c q), fun _ => ⟨rfl, rfl⟩⟩
    · rw [cfgPinReadLine, hreg]; rfl
    · rw [cfgPinWriteLine, hreg]; rfl

/-- The operation of SETPIN (high) and of CLRPIN (low). -/
def pinDrive (p : Pin) : Level → Instr
  | true => .wrBsrr (1#32 <<< p.val)
  | false => .wrBrr (1#32 <<< p.val)

theorem decode_pinDrive (p : Pin) (l : Level) :
    decode (if l then setPinLine p else clrPinLine p).stimulus = .ok (pinDrive p l) := by
  cases l <;> rfl

theorem isDriveWrite_pinDrive (p : Pin) (l : Level) : isDriveWrite (pinDrive p l) = true := by
  cases l <;> rfl

/-- SETPIN and CLRPIN ask their level of their pin, and nothing of any other. -/
theorem askedLevel_pinDrive (p r : Pin) (l : Level) : askedLevel (pinDrive p l) r = if r = p then some l else none := by
  cases l <;> simp only [pinDrive, askedLevel, oneHot_low, oneHot_high, decide_eq_true_eq, Bool.false_eq_true, if_false]

/-- On an Output pin they emit the one event of their pin. -/
theorem driveEvents_pinDrive {p : Pin} {out : Pin → Bool} (l : Level) (h : out p = true) :
    driveEvents (pinDrive p l) out = [⟨p, l⟩] := by
  have hphase (level : Pin → Level) : phaseEvents (fun r => decide (r = p)) out level = [⟨p, level p⟩] := by
    simp only [phaseEvents, Bool.and_comm (decide _)]
    rw [← List.filter_filter, allPins_filter_eq, List.filter_singleton, h]
    rfl
  have hnone (level : Pin → Level) : phaseEvents (fun _ => false) out level = [] := by simp [phaseEvents]
  cases l <;> simp only [pinDrive, driveEvents, oneHot_low, oneHot_high, hphase, hnone, List.append_nil]

/-- Settles O48: CFGPIN sets the entries of p (`cfgPin_ops`), which makes p an Output pin, and the drive then sets its level and no
other (`askedLevel_pinDrive`, `driveEvents_pinDrive`). -/
theorem configureThenDriveSetsThePin : Obligations.ConfigureThenDriveSetsThePin := by
  intro s p m c l hm
  obtain ⟨v, rd, wr, hrd, hwr, hrdWork, hwrWork, hresult⟩ := cfgPin_ops p m c s.port
  obtain ⟨hrdData, hwrOk⟩ := hresult s.config
  have hdrive := isDriveWrite_pinDrive p l
  have hout : (s.port.setConfig p m c).isOutput p = true :=
    Port.isOutput_of_mode (by rw [Port.setConfig_modeOf, if_pos rfl]; exact hm)
  obtain ⟨hmode, hcnf, hdiag, hlevel, hevents⟩ := driveWrite_spec hdrive (s.port.setConfig p m c)
  have hmodeOf (r : Pin) : (workOf (pinDrive p l) (s.port.setConfig p m c)).port.modeOf r = if r = p then m else s.port.modeOf r :=
    (congrArg (·.get r) hmode).trans (s.port.setConfig_modeOf p r m c)
  have hcnfOf (r : Pin) : (workOf (pinDrive p l) (s.port.setConfig p m c)).port.cnfOf r = if r = p then c else s.port.cnfOf r :=
    (congrArg (·.get r) hcnf).trans (s.port.setConfig_cnfOf p r m c)
  have hread : exec rd s = .next { s with transcript := s.transcript ++ [⟨rd, ⟨.data v, [], []⟩⟩] } :=
    exec_of_work (congrArg Work.port hrdWork) hrdData (congrArg Work.events hrdWork) (congrArg Work.diagnostics hrdWork)
  refine ⟨v, rd, wr, pinDrive p l, _, hrd, hread, hwr, decode_pinDrive p l, by rw [runOps, hread]; exact runOps_pair _ _ _,
    ?_, ?_, ?_, ?_, fun r hr => ⟨?_, ?_, ?_⟩⟩
  · simp [hwrWork, hwrOk, hdiag, hevents, driveEvents_pinDrive l hout, resultOf_driveWrite hdrive]
  · simp [hwrWork, hmodeOf]
  · simp [hwrWork, hcnfOf]
  · simp [hwrWork, hlevel, hout, askedLevel_pinDrive]
  · simp [hwrWork, hmodeOf, hr]
  · simp [hwrWork, hcnfOf, hr]
  · simp [hwrWork, hlevel, askedLevel_pinDrive, hr]

end Sys2Proof.Machine
end
